-- ==== Sys2Proof/Word.lean ====
section
/-! DEFINITION. The machine's word and byte (spec/00_scope.md rules R9 and R11). -/

namespace Sys2Proof

/-- A 32-bit unsigned word: a register, a memory word, a segment identifier, an offset, a pc value
or an instruction word (R9, R11). -/
abbrev Word := BitVec 32

/-- A byte of the program image and of the two I/O channels (R34, R201). -/
abbrev Byte := BitVec 8

end Sys2Proof
end

