-- ==== Sys2Proof/Machine/Codec.lean ====
section
/-! DEFINITION. The contract of the bit-field codec (spec/30_encoding.md rules R82 to R87). The codec is
outside the block (00_scope.md rule R4): the decoder only extracts fields, which cannot fail, and
encoders insert them. -/

namespace Sys2Proof.Codec

/-- How a codec call can fail. -/
inductive CodecError where
  /-- R85: the value does not fit the field on insertion. Raised by `newUnsigned` and `newSigned`,
  never by the block (R187). -/
  | overflow
  /-- R86 and decision D26: w > 64 or w + lsb > 64 breaks the precondition, and the call is refused
  (safe: the model gives such a call no result). -/
  | outsideContract
  deriving DecidableEq, Repr

/-- The 64-bit container of R82. -/
abbrev Container := BitVec 64

/-- R82: the container of a 32-bit instruction word has a zero high half. -/
def container (w : Word) : Container := w.setWidth 64

/-- R82's precondition. -/
def inContract (w lsb : Nat) : Bool := w ≤ 64 && w + lsb ≤ 64

/-- R82: floor(word / 2^lsb) mod 2^w. -/
def field (word : Container) (w lsb : Nat) : Nat := word.toNat / 2 ^ lsb % 2 ^ w

/-- R82: the `w`-bit field at `lsb`, zero-extended. -/
def getUnsigned (word : Container) (w lsb : Nat) : Except CodecError Nat :=
  if inContract w lsb then .ok (field word w lsb) else .error .outsideContract

/-- R83: the signed reading of a `w`-bit number `u`. -/
def signedOf (w u : Nat) : Int :=
  if 0 < w ∧ 2 ^ (w - 1) ≤ u then (u : Int) - 2 ^ w else u

/-- R83: as `getUnsigned`, sign-extended from bit w - 1. -/
def getSigned (word : Container) (w lsb : Nat) : Except CodecError Int :=
  if inContract w lsb then .ok (signedOf w (field word w lsb)) else .error .outsideContract

/-- R84: 0 ≤ value < 2^w. -/
def fitsUnsigned (value : Int) (w : Nat) : Bool := 0 ≤ value && value < 2 ^ w

/-- R84, for w ≥ 1: -2^(w-1) ≤ value < 2^(w-1). R84 gives no meaning to w = 0, where w - 1 is 0 here and the
answer is -1 ≤ value < 1 (DESIGN CHOICE, notes/assumptions/18.md); no insertion asks at w = 0 (R86). -/
def fitsSigned (value : Int) (w : Nat) : Bool := -(2 ^ (w - 1)) ≤ value && value < 2 ^ (w - 1)

/-- R85: the word with the field at `lsb` replaced by the number `v`. -/
def replaceField (word : Container) (w lsb v : Nat) : Container :=
  BitVec.ofNat 64 (word.toNat - field word w lsb * 2 ^ lsb + v * 2 ^ lsb)

/-- R85 and R86: a zero-width write changes nothing, whatever the value (90_conflicts.md C7). -/
def newUnsigned (word : Container) (w lsb : Nat) (value : Int) : Except CodecError Container :=
  if inContract w lsb then
    if w = 0 then .ok word
    else if fitsUnsigned value w then .ok (replaceField word w lsb value.toNat)
    else .error .overflow
  else .error .outsideContract

/-- R85 and R86, signed: the two's-complement bits of the value, value mod 2^w. -/
def newSigned (word : Container) (w lsb : Nat) (value : Int) : Except CodecError Container :=
  if inContract w lsb then
    if w = 0 then .ok word
    else if fitsSigned value w then .ok (replaceField word w lsb (value % 2 ^ w).toNat)
    else .error .overflow
  else .error .outsideContract

end Sys2Proof.Codec
end

