-- ==== Sys2Proof/Syntax.lean ====
section
/-! DEFINITION. The instructions: one constructor per row of spec/opcode_table.json, and the spec's
pseudo-instructions as abbreviations of them (spec/30_encoding.md rules R76, R80, R89, R90). -/

namespace Sys2Proof

/-- A register index. R21: "operand fields are structurally limited to 3 bits by the instruction
format". -/
abbrev Reg := Fin 8

/-- The 14 operations of R76. A constructor holds the operand fields the operation uses; the fields
R78 lists as ignored are no part of the instruction. Field order is the word's: A, B, C. -/
inductive Instr where
  /-- conditional-move, opcode 0 (R120). -/
  | cmov (a b c : Reg)
  /-- segment-load, opcode 1 (R140). -/
  | sload (a b c : Reg)
  /-- segment-store, opcode 2 (R141). -/
  | sstore (a b c : Reg)
  /-- add, opcode 3 (R130). -/
  | add (a b c : Reg)
  /-- multiply, opcode 4 (R131). -/
  | mul (a b c : Reg)
  /-- divide, opcode 5 (R132). -/
  | div (a b c : Reg)
  /-- bitwise-NAND, opcode 6 (R133). -/
  | nand (a b c : Reg)
  /-- halt, opcode 7 (R160). -/
  | halt
  /-- allocate-segment, opcode 8 (R150). -/
  | alloc (b c : Reg)
  /-- deallocate-segment, opcode 9 (R151). -/
  | free (c : Reg)
  /-- output, opcode 10, mnemonic out (R170). -/
  | output (c : Reg)
  /-- input, opcode 11, mnemonic in (R171). -/
  | input (c : Reg)
  /-- load-program, opcode 12 (R161). -/
  | loadp (b c : Reg)
  /-- load-immediate, opcode 13 (R121). The immediate is the number the programmer writes;
  `Instr.wellFormed` says that it fits the 25-bit field. -/
  | loadi (a : Reg) (imm : Nat)
  deriving DecidableEq, Repr

/-- Pseudo-instruction `nop` (R90). -/
abbrev Instr.nop : Instr := .cmov 0 0 0

/-- Pseudo-instruction `not rA, rB` (R90). -/
abbrev Instr.bitNot (a b : Reg) : Instr := .nand a b b

/-- Pseudo-instruction `jmp rC` (R90): a pure jump only while x[0] = 0. -/
abbrev Instr.jmp (c : Reg) : Instr := .loadp 0 c

end Sys2Proof
end

