-- ==== Sys2Proof/WellFormed.lean ====
section
/-! DEFINITION. Which instruction terms the encoding can hold (spec/30_encoding.md rules R74, R75,
R81). -/

namespace Sys2Proof

/-- R75: an immediate is in the range 0 to 2^25 - 1. Register fields cannot be out of range (R21). -/
def immediateFits (imm : Nat) : Bool := imm < 2 ^ 25

/-- An instruction is well formed when every operand fits its field. Only load-immediate can fail. -/
def Instr.wellFormed : Instr → Bool
  | .cmov _ _ _ => true
  | .sload _ _ _ => true
  | .sstore _ _ _ => true
  | .add _ _ _ => true
  | .mul _ _ _ => true
  | .div _ _ _ => true
  | .nand _ _ _ => true
  | .halt => true
  | .alloc _ _ => true
  | .free _ => true
  | .output _ => true
  | .input _ => true
  | .loadp _ _ => true
  | .loadi _ imm => immediateFits imm

end Sys2Proof
end

