-- ==== Sys2Proof/Decode.lean ====
section
/-! DEFINITION. The instruction decoder and the encoders (spec/30_encoding.md rules R70 to R81). -/

namespace Sys2Proof

/-- The one failure of decoding (R79). -/
inductive DecodeError where
  /-- R77: opcode 14 or 15. -/
  | unknownOpcode
  deriving DecidableEq, Repr

/-- The opcode, bits 31:28 (R71). -/
def opcodeField (w : Word) : Nat := Codec.field (Codec.container w) 4 28

/-- A 3-bit register field whose least significant bit is `lsb` (R82). -/
def registerField (w : Word) (lsb : Nat) : Reg :=
  ⟨Codec.field (Codec.container w) 3 lsb, Nat.mod_lt _ (by decide)⟩

/-- Field A of the standard layout, bits 8:6 (R72, 90_conflicts.md C1). -/
def fieldA (w : Word) : Reg := registerField w 6

/-- Field B of the standard layout, bits 5:3 (R72). -/
def fieldB (w : Word) : Reg := registerField w 3

/-- Field C of the standard layout, bits 2:0 (R72). -/
def fieldC (w : Word) : Reg := registerField w 0

/-- Field A of the load-immediate layout, bits 27:25 (R74). -/
def immediateFieldA (w : Word) : Reg := registerField w 25

/-- Field imm of the load-immediate layout, bits 24:0 (R74). -/
def immediateField (w : Word) : Nat := Codec.field (Codec.container w) 25 0

/-- R80: total on every word. Opcodes 14 and 15 are the only invalid encodings (R77); bits 27:9 of a
standard-layout word (R73) and the fields an operation does not use (R78) are ignored. -/
def decode (w : Word) : Except DecodeError Instr :=
  match opcodeField w with
  | 0 => .ok (.cmov (fieldA w) (fieldB w) (fieldC w))
  | 1 => .ok (.sload (fieldA w) (fieldB w) (fieldC w))
  | 2 => .ok (.sstore (fieldA w) (fieldB w) (fieldC w))
  | 3 => .ok (.add (fieldA w) (fieldB w) (fieldC w))
  | 4 => .ok (.mul (fieldA w) (fieldB w) (fieldC w))
  | 5 => .ok (.div (fieldA w) (fieldB w) (fieldC w))
  | 6 => .ok (.nand (fieldA w) (fieldB w) (fieldC w))
  | 7 => .ok .halt
  | 8 => .ok (.alloc (fieldB w) (fieldC w))
  | 9 => .ok (.free (fieldC w))
  | 10 => .ok (.output (fieldC w))
  | 11 => .ok (.input (fieldC w))
  | 12 => .ok (.loadp (fieldB w) (fieldC w))
  | 13 => .ok (.loadi (immediateFieldA w) (immediateField w))
  | _ => .error .unknownOpcode

/-- The opcode number of an instruction (R76, decision D5). -/
def Instr.opcode : Instr → Nat
  | .cmov _ _ _ => 0
  | .sload _ _ _ => 1
  | .sstore _ _ _ => 2
  | .add _ _ _ => 3
  | .mul _ _ _ => 4
  | .div _ _ _ => 5
  | .nand _ _ _ => 6
  | .halt => 7
  | .alloc _ _ => 8
  | .free _ => 9
  | .output _ => 10
  | .input _ => 11
  | .loadp _ _ => 12
  | .loadi _ _ => 13

/-- R81: op * 2^28 + a * 2^6 + b * 2^3 + c, with zeros in bits 27:9. -/
def enc3 (op : Nat) (a b c : Reg) : Word :=
  BitVec.ofNat 32 (op * 2 ^ 28 + a.val * 2 ^ 6 + b.val * 2 ^ 3 + c.val)

/-- R81: 13 * 2^28 + a * 2^25 + imm. -/
def encLI (a : Reg) (imm : Nat) : Word :=
  BitVec.ofNat 32 (13 * 2 ^ 28 + a.val * 2 ^ 25 + imm)

/-- The canonical word of a well-formed instruction (R81, and R89 for the zero fields). -/
def encode : Instr → Word
  | .cmov a b c => enc3 0 a b c
  | .sload a b c => enc3 1 a b c
  | .sstore a b c => enc3 2 a b c
  | .add a b c => enc3 3 a b c
  | .mul a b c => enc3 4 a b c
  | .div a b c => enc3 5 a b c
  | .nand a b c => enc3 6 a b c
  | .halt => enc3 7 0 0 0
  | .alloc b c => enc3 8 0 b c
  | .free c => enc3 9 0 0 c
  | .output c => enc3 10 0 0 c
  | .input c => enc3 11 0 0 c
  | .loadp b c => enc3 12 0 b c
  | .loadi a imm => encLI a imm

/-- The load-immediate word built field by field with the codec, which rejects an immediate of 2^25 or
more with Overflow (R81, R85). -/
def codecEncLI (a : Reg) (imm : Nat) : Except Codec.CodecError Codec.Container := do
  let op ← Codec.newUnsigned 0 4 28 13
  let opA ← Codec.newUnsigned op 3 25 a.val
  Codec.newUnsigned opA 25 0 imm

/-- The standard-layout word built field by field with the codec (R81, R85). -/
def codecEnc3 (op : Nat) (a b c : Reg) : Except Codec.CodecError Codec.Container := do
  let w ← Codec.newUnsigned 0 4 28 op
  let wA ← Codec.newUnsigned w 3 6 a.val
  let wB ← Codec.newUnsigned wA 3 3 b.val
  Codec.newUnsigned wB 3 0 c.val

/-- The encoder that rejects what the encoding cannot hold (R81, R85). -/
def codecEncode : Instr → Except Codec.CodecError Codec.Container
  | .cmov a b c => codecEnc3 0 a b c
  | .sload a b c => codecEnc3 1 a b c
  | .sstore a b c => codecEnc3 2 a b c
  | .add a b c => codecEnc3 3 a b c
  | .mul a b c => codecEnc3 4 a b c
  | .div a b c => codecEnc3 5 a b c
  | .nand a b c => codecEnc3 6 a b c
  | .halt => codecEnc3 7 0 0 0
  | .alloc b c => codecEnc3 8 0 b c
  | .free c => codecEnc3 9 0 0 c
  | .output c => codecEnc3 10 0 0 c
  | .input c => codecEnc3 11 0 0 c
  | .loadp b c => codecEnc3 12 0 b c
  | .loadi a imm => codecEncLI a imm

/-- The instruction the decoder reads from the word whose bits are `w`, numbered as
spec/opcode_table.json numbers them. Every instruction is one 32-bit word (R70), and memory holds
words, not bytes (R40, R56), so there is no byte order to apply. -/
def decodeTableWord (nbits w : Nat) : Option Instr :=
  match decode (BitVec.ofNat 32 (w % 2 ^ nbits)) with
  | .ok i => some i
  | .error .unknownOpcode => none

end Sys2Proof
end

