-- ==== Sys2Proof/Config.lean ====
section
/-! DEFINITION. The implementation parameters the spec leaves OPEN (spec/00_scope.md rule R9,
20_memory.md rule R55, 60_exceptions.md rule R196). A `Config` is held in `State` and no step changes
it, so that a statement about every state is a statement about every value of the parameters
(notes/assumptions/3.md). -/

namespace Sys2Proof

/-- The OPEN parameters, with the bounds the spec puts on them: MAX_SEGMENTS is at most 2^32,
MAX_SEG_WORDS at most 2^32 - 1 (R55), and FAULT_EXIT_STATUS is not zero (R196). -/
structure Config where
  /-- MAX_SEGMENTS: the most slots the Segment Table may hold (R9, R55). -/
  maxSegments : Nat
  /-- MAX_SEG_WORDS: the most words in one segment (R9, R55). -/
  maxSegWords : Nat
  /-- MEM_CAPACITY_WORDS: the most words over all mapped segments (R9, R55). -/
  memCapacityWords : Nat
  /-- FAULT_EXIT_STATUS: the process status on a fatal error (R9, R196). -/
  faultExitStatus : Nat
  maxSegments_le : maxSegments ≤ 4294967296
  maxSegWords_le : maxSegWords ≤ 4294967295
  faultExitStatus_pos : 0 < faultExitStatus
  deriving DecidableEq, Repr

/-- The parameters of the state after reset that the host's interface names: every limit at the
largest value that R55 admits, and a capacity that a full table cannot exceed, so that
ResourceExhausted comes only from a full table (DESIGN CHOICE, notes/assumptions/3.md: no
statement rests on these values). -/
def Config.largest : Config where
  maxSegments := 4294967296
  maxSegWords := 4294967295
  memCapacityWords := 18446744069414584320
  faultExitStatus := 1
  maxSegments_le := Nat.le_refl _
  maxSegWords_le := Nat.le_refl _
  faultExitStatus_pos := Nat.one_pos

end Sys2Proof
end

