-- ==== Sys2Proof/Machine/State.lean ====
section
/-! DEFINITION. The whole state of the machine as plain data (spec/10_state.md rules R20 to R39), the
reasons a step can stop, and the state after reset. -/

namespace Sys2Proof.Machine

/-- The run state `run` (R31). -/
inductive RunState where
  | loading
  | running
  | halted
  | faulted
  deriving DecidableEq, Repr

/-- The fatal errors of R182. Raising one is a transition to FAULTED (R181), so it is a next state of
the model, never a `Fault`. -/
inductive FaultKind where
  | invalidSegment
  | outOfBounds
  | divisionByZero
  | invalidOutput
  | unknownOpcode
  | malformedProgram
  | resourceExhausted
  deriving DecidableEq, Repr

/-- A segment (R41): a length in words, and the words that are not 0, by offset. The list is strictly
rising in its offsets, every offset is below the length and no listed word is 0 (`Memory.wf`); an
offset below the length that is not listed reads as 0, which is what R41 and R46 say a new segment
holds. -/
structure Segment where
  len   : Nat
  cells : List (Nat × Word)
  deriving DecidableEq, Repr

/-- A slot of the Segment Table (R33). -/
inductive Slot where
  | mapped (sg : Segment)
  | unmapped
  deriving DecidableEq, Repr

/-- The Segment Table (R33): the slots, indexed from 0, and the LIFO stack of freed identifiers, top
first. -/
structure Memory where
  seg  : List Slot
  pool : List Word
  deriving DecidableEq, Repr

/-- R39: the table after reset, before the image is loaded. -/
def Memory.empty : Memory := { seg := [], pool := [] }

/-- The machine's state: the record of R38, the internal latch `ipc` of R27, and two fields of the
model's own, the image the host has offered and the implementation parameters. -/
structure State where
  /-- The 8 general registers (R20). -/
  x : Vector Word 8
  /-- The program counter (R24). -/
  pc : Word
  /-- The internal latch `ipc`: the offset of the instruction being executed (R27). -/
  ipc : Word
  /-- RUN_STATE (R31, R32). -/
  run : RunState
  /-- FAULT_KIND (R32): `none` is code 0. -/
  fkind : Option FaultKind
  /-- FAULT_PC (R32). -/
  fpc : Word
  /-- The Segment Table and the reuse pool (R33). -/
  mem : Memory
  /-- The input bytes the host has still to deliver (R34). -/
  inp : List Byte
  /-- The bytes emitted so far (R34). -/
  out : List Byte
  /-- MODEL'S OWN: the program image the host has offered to the LOAD_INITIAL interface and the block
  has not answered yet (R7 item 4, R200, R204; notes/assumptions/4.md). -/
  image : Option (List Byte)
  /-- MODEL'S OWN: the implementation parameters (R9; notes/assumptions/3.md). No step writes it. -/
  cfg : Config
  deriving DecidableEq, Repr

/-- Why a step of the machine does not happen. Each is a state in which the spec says that no step
happens (R100), so stopping there is exact, and safe. No instruction raises one. -/
inductive Fault where
  /-- LOADING, and the host has offered no image: the block takes no step (R100, R200). Raised by
  `step`. Safe. -/
  | awaitingImage
  /-- HALTED is terminal: no step follows (R31, R100, R160). Raised by `step`. Safe. -/
  | halted
  /-- FAULTED is terminal: no step follows (R31, R100, R180). Raised by `step`. Safe. -/
  | faulted
  deriving DecidableEq, Repr

/-- What the model gives no meaning. -/
inductive Refusal where
  /-- An instruction without a meaning; no arm of `exec` uses it. Safe. -/
  | notModelled (mnemonic : String)
  /-- A LOAD_INITIAL outside LOADING, or a second one: the interface refuses it and the machine is not
  affected (R204). Raised by the host action `hostOfferImage`, never by `step`. Safe. -/
  | loadInitialRefused
  /-- A reset while RUNNING "is not modelled" (R200). Raised by the host action `hostReset`, never by
  `step`. Safe. -/
  | resetWhileRunning
  deriving DecidableEq, Repr

/-- R39 and R200: every piece of state after reset, for the host's parameters and input sequence. The
latch `ipc` and the offered image have no reset value in the spec: 0 and none (DESIGN CHOICE,
notes/assumptions/2.md and 4.md). -/
def State.resetWith (cfg : Config) (inp : List Byte) : State where
  x := Vector.replicate 8 0
  pc := 0
  ipc := 0
  run := .loading
  fkind := none
  fpc := 0
  mem := Memory.empty
  inp := inp
  out := []
  image := none
  cfg := cfg

/-- The machine right after reset, with an empty input sequence and the largest limits (DESIGN CHOICE
for these two host arguments, notes/assumptions/3.md and 5.md). -/
def State.reset : State := State.resetWith Config.largest []

end Sys2Proof.Machine
end

