-- ==== Sys2Proof/Machine/Memory.lean ====
section
/-! DEFINITION. Segments and slots as data: reading and writing one word of a segment, the canonical
form, and the dense list of words a segment stands for (spec/20_memory.md rules R40 to R43). -/

namespace Sys2Proof.Machine

/-- The word at an offset of a list of cells: an offset that is not listed holds 0 (R41). -/
def cellRead : List (Nat × Word) → Nat → Word
  | [], _ => 0
  | (k, v) :: rest, off => if k = off then v else cellRead rest off

/-- The cells after a write of one word; writing 0 removes the entry, so the form stays canonical. -/
def cellWrite : List (Nat × Word) → Nat → Word → List (Nat × Word)
  | [], off, v => if v = 0 then [] else [(off, v)]
  | (k, u) :: rest, off, v =>
    if k < off then (k, u) :: cellWrite rest off v
    else if k = off then (if v = 0 then rest else (off, v) :: rest)
    else (if v = 0 then (k, u) :: rest else (off, v) :: (k, u) :: rest)

/-- The cells of a sequence of words whose first word stands at offset `off`. -/
def cellsOfWords : List Word → Nat → List (Nat × Word)
  | [], _ => []
  | v :: rest, off => if v = 0 then cellsOfWords rest (off + 1) else (off, v) :: cellsOfWords rest (off + 1)

/-- The canonical form of a list of cells between the offsets `lo` (included) and `hi` (excluded): the
offsets rise strictly and no listed word is 0. -/
def cellsCanonical (hi : Nat) : Nat → List (Nat × Word) → Bool
  | _, [] => true
  | lo, (k, v) :: rest => lo ≤ k && k < hi && v ≠ 0 && cellsCanonical hi (k + 1) rest

/-- A zero-filled segment of `len` words (R46). -/
def Segment.zeros (len : Nat) : Segment := { len := len, cells := [] }

/-- The segment that holds the given words (R49). -/
def Segment.ofWords (words : List Word) : Segment :=
  { len := words.length, cells := cellsOfWords words 0 }

/-- `words[off]` of a segment, for an offset below its length (R44). -/
def Segment.wordAt (sg : Segment) (off : Nat) : Word := cellRead sg.cells off

/-- `words[off] <- v`, for an offset below the length, which does not change (R45). -/
def Segment.setWord (sg : Segment) (off : Nat) (v : Word) : Segment :=
  { sg with cells := cellWrite sg.cells off v }

/-- The ordered sequence of words that a segment is (R41): the form of R38's record. -/
def Segment.words (sg : Segment) : List Word := (List.range sg.len).map sg.wordAt

/-- The canonical form of one segment. -/
def Segment.wf (sg : Segment) : Bool := cellsCanonical sg.len 0 sg.cells

/-- The canonical form of one slot. -/
def Slot.wf : Slot → Bool
  | .mapped sg => sg.wf
  | .unmapped => true

/-- The memory is in canonical form, so that equal memories are equal data. -/
def Memory.wf (m : Memory) : Bool := m.seg.all Slot.wf

/-- The length of the segment in a slot; an unmapped slot holds no words. -/
def Slot.wordCount : Slot → Nat
  | .mapped sg => sg.len
  | .unmapped => 0

/-- `size`, the table size (R33). -/
def Memory.size (m : Memory) : Nat := m.seg.length

/-- The live segment of an identifier, if it is valid (R42, R43). -/
def Memory.lookup (m : Memory) (id : Word) : Option Segment :=
  match m.seg[id.toNat]? with
  | some (.mapped sg) => some sg
  | some .unmapped => none
  | none => none

/-- valid(id) := id < size and seg[id] = Mapped(_) (R43). -/
def Memory.valid (m : Memory) (id : Word) : Bool := (m.lookup id).isSome

/-- len(seg[id]). For an identifier that is not valid, which R48 never asks about in a run (R50), it is 0
(DESIGN CHOICE, notes/assumptions/20.md). -/
def Memory.segLen (m : Memory) (id : Word) : Nat :=
  match m.lookup id with
  | some sg => sg.len
  | none => 0

/-- used_words, the sum of `len` over all mapped segments (R46). -/
def Memory.usedWords (m : Memory) : Nat := (m.seg.map Slot.wordCount).sum

/-- The table with slot `id` replaced. -/
def Memory.setSlot (m : Memory) (id : Word) (slot : Slot) : Memory :=
  { m with seg := m.seg.set id.toNat slot }

end Sys2Proof.Machine
end

