-- ==== Sys2Proof/Machine/Ops.lean ====
section
/-! DEFINITION. The shared operations: taking a fatal error, the Segment Table operations, and the two
byte channels (spec/20_memory.md rules R44 to R58, 46_io.md rules R174 and R175, 60_exceptions.md rule
R181). -/

namespace Sys2Proof.Machine

/-- The outcome of one step of this machine. -/
abbrev StepOutcome := Host.Outcome State Fault Refusal

/-! ### Taking a fatal error -/

/-- R181: record the kind and the offset, and become FAULTED; nothing else changes. -/
def raiseAt (kind : FaultKind) (offset : Word) (s : State) : State :=
  { s with run := .faulted, fkind := some kind, fpc := offset }

/-- `raise Fault(kind)` in a step: FAULT_PC is the latch `ipc` (R181). It is a next state; the machine
has no handler, and no return from it but reset (R188). -/
def raiseFault (kind : FaultKind) (s : State) : StepOutcome := .next (raiseAt kind s.ipc s)

/-- A load-phase fault: FAULT_PC is 0 (R32, R190, R191). -/
def raiseLoadFault (kind : FaultKind) (s : State) : StepOutcome := .next (raiseAt kind 0 s)

/-- Goes on with the value of an operation, or raises the fault it met. A faulting operation changed
nothing (R107). -/
def completeOrRaise {α : Type} (r : Except FaultKind α) (s : State) (complete : α → State) :
    StepOutcome :=
  match r with
  | .ok a => .next (complete a)
  | .error kind => raiseFault kind s

/-! ### The Segment Table -/

/-- SegRead(id, off) (R44): InvalidSegment is checked before OutOfBounds. -/
def Memory.segRead (m : Memory) (id off : Word) : Except FaultKind Word :=
  match m.lookup id with
  | none => .error .invalidSegment
  | some sg => if off.toNat < sg.len then .ok (sg.wordAt off.toNat) else .error .outOfBounds

/-- SegWrite(id, off, v) (R45). -/
def Memory.segWrite (m : Memory) (id off v : Word) : Except FaultKind Memory :=
  match m.lookup id with
  | none => .error .invalidSegment
  | some sg =>
    if off.toNat < sg.len then .ok (m.setSlot id (.mapped (sg.setWord off.toNat v)))
    else .error .outOfBounds

/-- The size checks of R46: a segment of `len` words is not too long and fits the capacity. -/
def Memory.roomFor (cfg : Config) (m : Memory) (len : Nat) : Bool :=
  len ≤ cfg.maxSegWords && m.usedWords + len ≤ cfg.memCapacityWords

/-- SegAlloc(len) (R46): the identifier and the table after the allocation. The identifier is the top of
the pool if there is one, else the table size. With MAX_SEGMENTS = 2^32, which R55 admits, the table can grow
to 2^32 slots, and the identifier 0xFFFFFFFF is then given out and is valid; a corner case of R140 says that it
never is (DESIGN CHOICE: R46 and R55 are followed, notes/assumptions/17.md). A pooled identifier without a slot,
which no run has (R52), leaves the slots as they are (DESIGN CHOICE, notes/assumptions/20.md). -/
def Memory.segAlloc (cfg : Config) (m : Memory) (len : Word) : Except FaultKind (Word × Memory) :=
  if m.roomFor cfg len.toNat then
    match m.pool with
    | id :: rest =>
      .ok (id, { seg := m.seg.set id.toNat (.mapped (Segment.zeros len.toNat)), pool := rest })
    | [] =>
      if m.size < cfg.maxSegments then
        .ok (BitVec.ofNat 32 m.size,
          { seg := m.seg ++ [.mapped (Segment.zeros len.toNat)], pool := [] })
      else .error .resourceExhausted
  else .error .resourceExhausted

/-- SegFree(id) (R47). -/
def Memory.segFree (m : Memory) (id : Word) : Except FaultKind Memory :=
  if id = 0 then .error .invalidSegment
  else if m.valid id then
    .ok { seg := m.seg.set id.toNat .unmapped, pool := id :: m.pool }
  else .error .invalidSegment

/-- The capacity check of R48: the words in use once segment 0 has been replaced by `sg`. -/
def Memory.roomForProgram (cfg : Config) (m : Memory) (sg : Segment) : Bool :=
  m.usedWords - m.segLen 0 + sg.len ≤ cfg.memCapacityWords

/-- SegDup(src) (R48): segment 0 becomes a copy of segment src; no change when src = 0. -/
def Memory.segDup (cfg : Config) (m : Memory) (src : Word) : Except FaultKind Memory :=
  match m.lookup src with
  | none => .error .invalidSegment
  | some sg =>
    if src = 0 then .ok m
    else if m.roomForProgram cfg sg then .ok (m.setSlot 0 (.mapped sg))
    else .error .resourceExhausted

/-- SegLoadInitial(words) (R49): the program image becomes segment 0 of a table of size 1. -/
def Memory.segLoadInitial (cfg : Config) (words : List Word) : Except FaultKind Memory :=
  if words.length ≤ cfg.maxSegWords && words.length ≤ cfg.memCapacityWords then
    .ok { seg := [.mapped (Segment.ofWords words)], pool := [] }
  else .error .resourceExhausted

/-- SegReleaseAll() (R58): it ends the memory's life. "For observation, the model keeps `seg` and `pool`
exactly as they stood when halt executed." -/
def Memory.segReleaseAll (m : Memory) : Memory := m

/-! ### The byte channels -/

/-- InByte() (R174): the head of the input, or end of input, which is sticky. -/
def State.inByte (s : State) : Option Byte × State :=
  match s.inp with
  | [] => (none, s)
  | b :: rest => (some b, { s with inp := rest })

/-- OutByte(b) (R175). -/
def State.outByte (s : State) (b : Byte) : State := { s with out := s.out ++ [b] }

/-! ### Updates of the state that the meanings share -/

/-- The state with another Segment Table. -/
def State.setMem (s : State) (m : Memory) : State := { s with mem := m }

/-- PC redirect (R105): only load-program uses it. -/
def State.redirect (s : State) (target : Word) : State := { s with pc := target }

/-- RUNNING to HALTED (R31, R160). -/
def State.stop (s : State) : State := { s with run := .halted }

end Sys2Proof.Machine
end

