-- ==== Sys2Proof/Machine/Operands.lean ====
section
/-! DEFINITION. The operand forms: a register selected by a 3-bit field, and the zero-extended immediate
(spec/10_state.md rules R20 and R21, 30_encoding.md rule R75). -/

namespace Sys2Proof.Machine

/-- `x[r]` read (R12, R20). No register is hardwired. -/
def State.reg (s : State) (r : Reg) : Word := s.x.get r

/-- `x[r] <- v` (R12, R20). -/
def State.setReg (s : State) (r : Reg) (v : Word) : State :=
  { s with x := s.x.set r.val v r.isLt }

/-- `zext_32(imm)` (R11, R75). An immediate of 2^25 or more is no operand of any word; as a term it is taken
modulo 2^32 (DESIGN CHOICE, notes/assumptions/19.md). -/
def immediateOperand (imm : Nat) : Word := BitVec.ofNat 32 imm

/-- A byte of the input as a register value, and the all-ones word at end of input (R171). -/
def inputOperand : Option Byte → Word
  | none => 0xFFFFFFFF
  | some b => b.setWidth 32

/-- The byte that output emits: the low 8 bits of a value that is at most 255 (R170). -/
def outputOperand (v : Word) : Byte := v.setWidth 8

end Sys2Proof.Machine
end

