-- ==== Sys2Proof/Machine/Arithmetic.lean ====
section
/-! DEFINITION. add, multiply, divide and bitwise-NAND (spec/42_arithmetic.md). The operations are those
of the naturals, reduced mod 2^32 at the end (00_scope.md rule R11). -/

namespace Sys2Proof.Machine

/-- (b + c) mod 2^32 (R130). -/
def aluAdd (b c : Word) : Word := BitVec.ofNat 32 (b.toNat + c.toNat)

/-- (b * c) mod 2^32 (R131). -/
def aluMul (b c : Word) : Word := BitVec.ofNat 32 (b.toNat * c.toNat)

/-- floor(b / c), or DivisionByZero (R132). -/
def aluDiv (b c : Word) : Except FaultKind Word :=
  if c = 0 then .error .divisionByZero else .ok (BitVec.ofNat 32 (b.toNat / c.toNat))

/-- ~(b & c), bitwise (R133). -/
def aluNand (b c : Word) : Word := ~~~(b &&& c)

/-- R130. -/
def execAdd (a b c : Reg) (s : State) : StepOutcome :=
  .next (s.setReg a (aluAdd (s.reg b) (s.reg c)))

/-- R131. -/
def execMul (a b c : Reg) (s : State) : StepOutcome :=
  .next (s.setReg a (aluMul (s.reg b) (s.reg c)))

/-- R132. -/
def execDiv (a b c : Reg) (s : State) : StepOutcome :=
  completeOrRaise (aluDiv (s.reg b) (s.reg c)) s fun q => s.setReg a q

/-- R133. -/
def execNand (a b c : Reg) (s : State) : StepOutcome :=
  .next (s.setReg a (aluNand (s.reg b) (s.reg c)))

end Sys2Proof.Machine
end

