-- ==== Sys2Proof/Machine/Control.lean ====
section
/-! DEFINITION. halt and load-program (spec/45_control.md). -/

namespace Sys2Proof.Machine

/-- R160: run <- HALTED; SegReleaseAll(). -/
def execHalt (s : State) : StepOutcome := .next (s.stop.setMem s.mem.segReleaseAll)

/-- R161: the target is read first, then SegDup(x[B]), then pc <- target. -/
def execLoadp (b c : Reg) (s : State) : StepOutcome :=
  completeOrRaise (s.mem.segDup s.cfg (s.reg b)) s fun m => (s.setMem m).redirect (s.reg c)

end Sys2Proof.Machine
end

