-- ==== Sys2Proof/Machine/Flags.lean ====
section
/-! DEFINITION. The machine has no flags and no condition codes (spec/10_state.md rule R30); this file
holds the two tests of a register value that instructions make. -/

namespace Sys2Proof.Machine

/-- Conditional-move's test, on all 32 bits (R30, R120). -/
def isNonZero (v : Word) : Bool := v ≠ 0

/-- Output's test: the value is a byte (R170). -/
def isByte (v : Word) : Bool := v.toNat ≤ 255

end Sys2Proof.Machine
end

