-- ==== Sys2Proof/Machine/InputOutput.lean ====
section
/-! DEFINITION. output and input (spec/46_io.md). -/

namespace Sys2Proof.Machine

/-- R170: if x[C] > 255 then InvalidOutput, else the byte x[C] is emitted. -/
def execOutput (c : Reg) (s : State) : StepOutcome :=
  if isByte (s.reg c) then .next (s.outByte (outputOperand (s.reg c)))
  else raiseFault .invalidOutput s

/-- R171: x[C] gets the next byte of the input, or 0xFFFFFFFF at its end. -/
def execInput (c : Reg) (s : State) : StepOutcome :=
  .next (s.inByte.2.setReg c (inputOperand s.inByte.1))

end Sys2Proof.Machine
end

