-- ==== Sys2Proof/Machine/RegisterOps.lean ====
section
/-! DEFINITION. conditional-move and load-immediate (spec/41_register_ops.md). Every meaning runs after the
fetch and the pc increment of R106. -/

namespace Sys2Proof.Machine

/-- R120: if x[C] != 0 then x[A] <- x[B]. -/
def execCmov (a b c : Reg) (s : State) : StepOutcome :=
  .next (if isNonZero (s.reg c) then s.setReg a (s.reg b) else s)

/-- R121: x[A] <- zext_32(imm). -/
def execLoadi (a : Reg) (imm : Nat) (s : State) : StepOutcome :=
  .next (s.setReg a (immediateOperand imm))

end Sys2Proof.Machine
end

