-- ==== Sys2Proof/Machine/SegmentAccess.lean ====
section
/-! DEFINITION. segment-load and segment-store (spec/43_segment_access.md). -/

namespace Sys2Proof.Machine

/-- R140: x[A] <- SegRead(x[B], x[C]). -/
def execSload (a b c : Reg) (s : State) : StepOutcome :=
  completeOrRaise (s.mem.segRead (s.reg b) (s.reg c)) s fun v => s.setReg a v

/-- R141: SegWrite(x[A], x[B], x[C]). -/
def execSstore (a b c : Reg) (s : State) : StepOutcome :=
  completeOrRaise (s.mem.segWrite (s.reg a) (s.reg b) (s.reg c)) s fun m => s.setMem m

end Sys2Proof.Machine
end

