-- ==== Sys2Proof/Machine/SegmentManagement.lean ====
section
/-! DEFINITION. allocate-segment and deallocate-segment (spec/44_segment_management.md). -/

namespace Sys2Proof.Machine

/-- R150: x[B] <- SegAlloc(x[C]). -/
def execAlloc (b c : Reg) (s : State) : StepOutcome :=
  completeOrRaise (s.mem.segAlloc s.cfg (s.reg c)) s fun r => (s.setMem r.2).setReg b r.1

/-- R151: SegFree(x[C]). -/
def execFree (c : Reg) (s : State) : StepOutcome :=
  completeOrRaise (s.mem.segFree (s.reg c)) s fun m => s.setMem m

end Sys2Proof.Machine
end

