-- ==== Sys2Proof/Machine/Dispatch.lean ====
section
/-! DEFINITION. The dispatch to the 14 operations (spec/40_engine.md rule R104). -/

namespace Sys2Proof.Machine

def exec (i : Instr) (s : State) : Host.Outcome State Fault Refusal :=
  match i with
  | .cmov a b c => Sys2Proof.Machine.execCmov a b c s
  | .sload a b c => Sys2Proof.Machine.execSload a b c s
  | .sstore a b c => Sys2Proof.Machine.execSstore a b c s
  | .add a b c => Sys2Proof.Machine.execAdd a b c s
  | .mul a b c => Sys2Proof.Machine.execMul a b c s
  | .div a b c => Sys2Proof.Machine.execDiv a b c s
  | .nand a b c => Sys2Proof.Machine.execNand a b c s
  | .halt => Sys2Proof.Machine.execHalt s
  | .alloc b c => Sys2Proof.Machine.execAlloc b c s
  | .free c => Sys2Proof.Machine.execFree c s
  | .output c => Sys2Proof.Machine.execOutput c s
  | .input c => Sys2Proof.Machine.execInput c s
  | .loadp b c => Sys2Proof.Machine.execLoadp b c s
  | .loadi a imm => Sys2Proof.Machine.execLoadi a imm s

end Sys2Proof.Machine
end

