-- ==== Sys2Proof/Machine/Engine.lean ====
section
/-! DEFINITION. The fetch-decode-execute engine: one whole step in RUNNING (spec/40_engine.md rules R100 to
R109), and the placing of a word where the next fetch reads. -/

namespace Sys2Proof.Machine

/-- ipc <- pc (R101). -/
def State.latch (s : State) : State := { s with ipc := s.pc }

/-- FETCH at offset pc of segment 0 (R63, R101). -/
def State.fetch (s : State) : Except FaultKind Word := s.mem.segRead 0 s.pc

/-- pc <- pc + 1, once the fetch has succeeded (R102); mod 2^32 (R29). -/
def State.increment (s : State) : State := { s with pc := BitVec.ofNat 32 (s.pc.toNat + 1) }

/-- The state in which decode and execute run: ipc holds the instruction's offset and pc that plus 1
(R27, R102). -/
def State.executePhase (s : State) : State := s.latch.increment

/-- The fault that a decoding failure raises (R103, R189). -/
def DecodeError.kind : DecodeError → FaultKind
  | .unknownOpcode => .unknownOpcode

/-- Decode the fetched word and dispatch on the instruction (R103, R104). -/
def executeWord (w : Word) (s : State) : StepOutcome :=
  match decode w with
  | .ok i => exec i s
  | .error e => raiseFault (DecodeError.kind e) s

/-- One whole step in RUNNING (R106). A fetch that faults leaves pc as it is (R101). -/
def runningStep (s : State) : StepOutcome :=
  match s.fetch with
  | .ok w => executeWord w s.executePhase
  | .error kind => raiseFault kind s.latch

/-- Segment 0 with one word placed at an offset, made longer where it does not reach so far. -/
def Segment.placeWord (sg : Segment) (off : Nat) (w : Word) : Segment :=
  { len := max sg.len (off + 1), cells := cellWrite sg.cells off w }

/-- The table with one word placed at an offset of segment 0, which is mapped if it was not. -/
def Memory.placeProgramWord (m : Memory) (off : Nat) (w : Word) : Memory :=
  match m.seg with
  | .mapped sg :: rest => { m with seg := .mapped (sg.placeWord off w) :: rest }
  | .unmapped :: rest => { m with seg := .mapped ((Segment.zeros 0).placeWord off w) :: rest }
  | [] => { m with seg := [.mapped ((Segment.zeros 0).placeWord off w)] }

/-- The state, RUNNING, with a word placed where the next step fetches. -/
def State.placeNextWord (s : State) (w : Word) : State :=
  { s with run := .running, mem := s.mem.placeProgramWord s.pc.toNat w }

end Sys2Proof.Machine
end

