-- ==== Sys2Proof/Machine/Loader.lean ====
section
/-! DEFINITION. The host control interface: the program image and its load, and reset as a host action
(spec/70_reset_and_hazards.md rules R200 to R206). -/

namespace Sys2Proof.Machine

/-- A word of the image: four bytes, the most significant first (R201). -/
def wordOfBytes (b0 b1 b2 b3 : Byte) : Word :=
  BitVec.ofNat 32 (b0.toNat * 2 ^ 24 + b1.toNat * 2 ^ 16 + b2.toNat * 2 ^ 8 + b3.toNat)

/-- The words of an image; a length that is no multiple of 4 is MalformedProgram (R190, R201). -/
def imageWords : List Byte → Except FaultKind (List Word)
  | [] => .ok []
  | b0 :: b1 :: b2 :: b3 :: rest =>
    match imageWords rest with
    | .ok words => .ok (wordOfBytes b0 b1 b2 b3 :: words)
    | .error kind => .error kind
  | [_] => .error .malformedProgram
  | [_, _] => .error .malformedProgram
  | [_, _, _] => .error .malformedProgram

/-- The table the image gives: MalformedProgram is checked before ResourceExhausted (R192, R202). -/
def imageMemory (cfg : Config) (bytes : List Byte) : Except FaultKind Memory :=
  match imageWords bytes with
  | .ok words => Memory.segLoadInitial cfg words
  | .error kind => .error kind

/-- LOADING to RUNNING, with the image installed as segment 0 (R203). -/
def State.start (s : State) (m : Memory) : State := { s with run := .running, mem := m }

/-- The answer to an offered image: it starts the run (R203), or it faults (R201, R202). -/
def loadImage (bytes : List Byte) (s : State) : StepOutcome :=
  match imageMemory s.cfg bytes with
  | .ok m => .next (s.start m)
  | .error kind => raiseLoadFault kind s

/-- The state once the interface has taken the offered image. -/
def State.takeImage (s : State) : State := { s with image := none }

/-- What LOADING does: it answers an offered image, and otherwise takes no step (R100, R200). -/
def loadingStep (s : State) : StepOutcome :=
  match s.image with
  | some bytes => loadImage bytes s.takeImage
  | none => .fault .awaitingImage

/-- Host action: the host offers the image. It is accepted only once, and only in LOADING; otherwise the
interface refuses it and the machine is not affected (R204). -/
def hostOfferImage (bytes : List Byte) (s : State) : StepOutcome :=
  match s.run, s.image with
  | .loading, none => .next { s with image := some bytes }
  | .loading, some _ => .refused .loadInitialRefused
  | .running, _ => .refused .loadInitialRefused
  | .halted, _ => .refused .loadInitialRefused
  | .faulted, _ => .refused .loadInitialRefused

/-- Host action: reset, with the input sequence of the next run as its argument (R199, R200). A reset
while RUNNING is not modelled (R200, D4). -/
def hostReset (inp : List Byte) (s : State) : StepOutcome :=
  match s.run with
  | .running => .refused .resetWhileRunning
  | .loading => .next (State.resetWith s.cfg inp)
  | .halted => .next (State.resetWith s.cfg inp)
  | .faulted => .next (State.resetWith s.cfg inp)

end Sys2Proof.Machine
end

