-- ==== Sys2Proof/Machine/Step.lean ====
section
/-! DEFINITION. One step of the machine in each run state (spec/10_state.md rule R31, 40_engine.md rule
R100). -/

namespace Sys2Proof.Machine

/-- LOADING answers the offered image, RUNNING takes one whole instruction step, and HALTED and FAULTED
take none (R31, R100, R106, R203). -/
def step (s : State) : Host.Outcome State Fault Refusal :=
  match s.run with
  | .loading => loadingStep s
  | .running => runningStep s
  | .halted => .fault .halted
  | .faulted => .fault .faulted

/-- `s` with the instruction whose word is `w` where `step` fetches next: the word stands at offset pc of
segment 0, and the run state is RUNNING, as after a load of a program (notes/assumptions/6.md). -/
def State.withFetchWord (s : State) (nbits w : Nat) : State :=
  s.placeNextWord (BitVec.ofNat 32 (w % 2 ^ nbits))

end Sys2Proof.Machine
end

