-- ==== Sys2Proof/Machine/Assembler.lean ====
section
/-! DEFINITION. The spec's assembly syntax and pseudo-instructions (spec/30_encoding.md rules R89 and R90).
One instruction a line, `;` starts a comment, `name:` names the word offset of the next instruction and may
stand as the immediate of loadi. What a lexer must settle beside that is a DESIGN CHOICE
(notes/assumptions/8.md). The machine itself never uses this file. -/

namespace Sys2Proof.Assembler

/-- Why a text is not a program. -/
inductive AsmError where
  | badLine
  | unknownLabel
  | duplicateLabel
  /-- R81, R85: the immediate does not fit 25 bits. -/
  | overflow
  deriving DecidableEq, Repr

/-- The tokens of a line. -/
inductive Token where
  | name (cs : List Char)
  | comma
  | colon
  deriving DecidableEq, Repr

/-- A statement, with a label not yet resolved. -/
inductive Statement where
  | instr (i : Instr)
  | loadiLabel (a : Reg) (label : List Char)
  deriving DecidableEq, Repr

/-- The name collected so far (its characters reversed), if any, before the tokens that follow. -/
def endName : List Char → List Token → List Token
  | [], rest => rest
  | c :: cs, rest => .name (c :: cs).reverse :: rest

/-- The tokens of a line; `acc` holds the current name reversed. A `;` ends the line (R89). -/
def tokens : List Char → List Char → List Token
  | acc, [] => endName acc []
  | acc, ch :: rest =>
    if ch = ';' then endName acc []
    else if ch = ' ' || ch = '\t' || ch = '\r' then endName acc (tokens [] rest)
    else if ch = ',' then endName acc (.comma :: tokens [] rest)
    else if ch = ':' then endName acc (.colon :: tokens [] rest)
    else tokens (ch :: acc) rest

/-- The value of a digit in a base of at most 16. -/
def digitValue (base : Nat) (ch : Char) : Option Nat :=
  let n := ch.toNat
  let v := if 48 ≤ n ∧ n ≤ 57 then n - 48
    else if 97 ≤ n ∧ n ≤ 102 then n - 87
    else if 65 ≤ n ∧ n ≤ 70 then n - 55
    else 16
  if v < base then some v else none

/-- A sequence of digits, read after the number `acc`. -/
def digits (base acc : Nat) : List Char → Option Nat
  | [] => some acc
  | ch :: rest =>
    match digitValue base ch with
    | some v => digits base (acc * base + v) rest
    | none => none

/-- A decimal or `0x` hex number (R89). -/
def number : List Char → Option Nat
  | '0' :: 'x' :: d :: rest => digits 16 0 (d :: rest)
  | d :: rest => digits 10 0 (d :: rest)
  | [] => none

/-- A register name, `r0` to `r7` (R89). -/
def register : List Char → Option Reg
  | ['r', d] =>
    match digitValue 8 d with
    | some v => some (Fin.ofNat 8 v)
    | none => none
  | _ => none

/-- Three registers, in the order of R89's table. -/
def threeRegs (build : Reg → Reg → Reg → Instr) : List (List Char) → Option Statement
  | [a, b, c] =>
    match register a, register b, register c with
    | some a, some b, some c => some (.instr (build a b c))
    | _, _, _ => none
  | _ => none

/-- Two registers. -/
def twoRegs (build : Reg → Reg → Instr) : List (List Char) → Option Statement
  | [a, b] =>
    match register a, register b with
    | some a, some b => some (.instr (build a b))
    | _, _ => none
  | _ => none

/-- One register. -/
def oneReg (build : Reg → Instr) : List (List Char) → Option Statement
  | [a] => (register a).map fun a => .instr (build a)
  | _ => none

/-- No operand. -/
def noOperand (i : Instr) : List (List Char) → Option Statement
  | [] => some (.instr i)
  | _ => none

/-- loadi's operands: a register, and a number or a label (R89). What can be read as a number is a number, also
where a label is spelled so (DESIGN CHOICE, notes/assumptions/8.md). -/
def immediateOperands : List (List Char) → Option Statement
  | [a, v] =>
    match register a with
    | some a =>
      match number v with
      | some n => some (.instr (.loadi a n))
      | none => some (.loadiLabel a v)
    | none => none
  | _ => none

/-- A mnemonic with its operands (R89's table, then R90's pseudo-instructions). -/
def statement (mnemonic : String) (ops : List (List Char)) : Option Statement :=
  if mnemonic = "cmov" then threeRegs .cmov ops
  else if mnemonic = "sload" then threeRegs .sload ops
  else if mnemonic = "sstore" then threeRegs .sstore ops
  else if mnemonic = "add" then threeRegs .add ops
  else if mnemonic = "mul" then threeRegs .mul ops
  else if mnemonic = "div" then threeRegs .div ops
  else if mnemonic = "nand" then threeRegs .nand ops
  else if mnemonic = "halt" then noOperand .halt ops
  else if mnemonic = "alloc" then twoRegs .alloc ops
  else if mnemonic = "free" then oneReg .free ops
  else if mnemonic = "out" then oneReg .output ops
  else if mnemonic = "in" then oneReg .input ops
  else if mnemonic = "loadp" then twoRegs .loadp ops
  else if mnemonic = "loadi" then immediateOperands ops
  else if mnemonic = "nop" then noOperand .nop ops
  else if mnemonic = "not" then twoRegs .bitNot ops
  else if mnemonic = "jmp" then oneReg .jmp ops
  else none

/-- Operands separated by commas. -/
def operands : List Token → Option (List (List Char))
  | [.name a] => some [a]
  | .name a :: .comma :: rest => (operands rest).map (a :: ·)
  | _ => none

/-- A line without its labels: nothing, or one statement. -/
def lineBody : List Token → Except AsmError (Option Statement)
  | [] => .ok none
  | [.name m] =>
    match statement (String.ofList m) [] with
    | some st => .ok (some st)
    | none => .error .badLine
  | .name m :: rest =>
    match operands rest with
    | some ops =>
      match statement (String.ofList m) ops with
      | some st => .ok (some st)
      | none => .error .badLine
    | none => .error .badLine
  | _ => .error .badLine

/-- A line: its labels, then its body. Any name may be a label, one spelled like a number, a register or a
mnemonic included (DESIGN CHOICE, notes/assumptions/8.md). -/
def line : List Token → Except AsmError (List (List Char) × Option Statement)
  | .name l :: .colon :: rest =>
    match line rest with
    | .ok (ls, body) => .ok (l :: ls, body)
    | .error e => .error e
  | ts =>
    match lineBody ts with
    | .ok body => .ok ([], body)
    | .error e => .error e

/-- The lines of a text, without their line ends; `acc` holds the current line reversed. -/
def splitLines : List Char → List Char → List (List Char)
  | acc, [] => [acc.reverse]
  | acc, ch :: rest =>
    if ch = '\n' then acc.reverse :: splitLines [] rest else splitLines (ch :: acc) rest

/-- The offset of a label. -/
def labelOffset (labels : List (List Char × Nat)) (l : List Char) : Option Nat :=
  (labels.find? fun p => p.1 = l).map Prod.snd

/-- First pass: the labels with their word offsets, and the statements. A label after which no instruction
follows names the offset one past the last word (DESIGN CHOICE, notes/assumptions/8.md). -/
def collect (offset : Nat) :
    List (List Char) → Except AsmError (List (List Char × Nat) × List Statement)
  | [] => .ok ([], [])
  | cs :: rest =>
    match line (tokens [] cs) with
    | .ok (ls, body) =>
      match collect (offset + body.toList.length) rest with
      | .ok (labels, sts) =>
        .ok (ls.map (fun l => (l, offset)) ++ labels, body.toList ++ sts)
      | .error e => .error e
    | .error e => .error e

/-- Second pass: a label becomes its word offset. -/
def resolve (labels : List (List Char × Nat)) : Statement → Except AsmError Instr
  | .instr i => .ok i
  | .loadiLabel a l =>
    match labelOffset labels l with
    | some off => .ok (.loadi a off)
    | none => .error .unknownLabel

/-- The word of a statement; one that is not well formed is rejected with Overflow (R81). -/
def encodeStatement (labels : List (List Char × Nat)) (st : Statement) : Except AsmError Word :=
  match resolve labels st with
  | .ok i => if i.wellFormed then .ok (encode i) else .error .overflow
  | .error e => .error e

/-- The words of a list of statements. -/
def encodeAll (labels : List (List Char × Nat)) : List Statement → Except AsmError (List Word)
  | [] => .ok []
  | st :: rest =>
    match encodeStatement labels st, encodeAll labels rest with
    | .ok w, .ok ws => .ok (w :: ws)
    | .error e, _ => .error e
    | .ok _, .error e => .error e

/-- The words of a program text (R89). -/
def assemble (text : String) : Except AsmError (List Word) :=
  match collect 0 (splitLines [] text.toList) with
  | .ok (labels, sts) =>
    if (labels.map Prod.fst).Nodup then encodeAll labels sts else .error .duplicateLabel
  | .error e => .error e

/-- The name of a register in the syntax. -/
def regName (r : Reg) : String := "r" ++ toString r.val

/-- An instruction in the syntax of R89. -/
def render : Instr → String
  | .cmov a b c => "cmov " ++ regName a ++ ", " ++ regName b ++ ", " ++ regName c
  | .sload a b c => "sload " ++ regName a ++ ", " ++ regName b ++ ", " ++ regName c
  | .sstore a b c => "sstore " ++ regName a ++ ", " ++ regName b ++ ", " ++ regName c
  | .add a b c => "add " ++ regName a ++ ", " ++ regName b ++ ", " ++ regName c
  | .mul a b c => "mul " ++ regName a ++ ", " ++ regName b ++ ", " ++ regName c
  | .div a b c => "div " ++ regName a ++ ", " ++ regName b ++ ", " ++ regName c
  | .nand a b c => "nand " ++ regName a ++ ", " ++ regName b ++ ", " ++ regName c
  | .halt => "halt"
  | .alloc b c => "alloc " ++ regName b ++ ", " ++ regName c
  | .free c => "free " ++ regName c
  | .output c => "out " ++ regName c
  | .input c => "in " ++ regName c
  | .loadp b c => "loadp " ++ regName b ++ ", " ++ regName c
  | .loadi a imm => "loadi " ++ regName a ++ ", " ++ toString imm

end Sys2Proof.Assembler
end

