-- ==== Sys2Proof/Machine/Interface.lean ====
section
/-! DEFINITION. The memory-access interface to the Segment Table as transactions, and the arbiter that orders
its requesters (spec/20_memory.md rules R63 and R64). The meanings call the table's operations directly;
this file says which transactions a step issues, in order. -/

namespace Sys2Proof.Machine

/-- The requests of R63. -/
inductive Request where
  | fetch (off : Word)
  | read (id off : Word)
  | write (id off v : Word)
  | alloc (len : Word)
  | free (id : Word)
  | dup (src : Word)
  | loadInitial (words : List Word)
  | releaseAll
  deriving DecidableEq, Repr

/-- The responses of R63; a response that carries a fault is the error of `Memory.transact`. -/
inductive Response where
  | word (v : Word)
  | ident (id : Word)
  | ok
  deriving DecidableEq, Repr

/-- The requesters of R64. -/
inductive Requester where
  | hostLoader
  | fetchUnit
  | executeUnit
  deriving DecidableEq, Repr

/-- Who issues a request (R63). -/
def Request.issuer : Request → Requester
  | .fetch _ => .fetchUnit
  | .read _ _ => .executeUnit
  | .write _ _ _ => .executeUnit
  | .alloc _ => .executeUnit
  | .free _ => .executeUnit
  | .dup _ => .executeUnit
  | .loadInitial _ => .hostLoader
  | .releaseAll => .executeUnit

/-- The response of a request that leaves the table as it is. -/
def unchanged {α : Type} (m : Memory) (respond : α → Response) (r : Except FaultKind α) :
    Except FaultKind (Response × Memory) :=
  match r with
  | .ok a => .ok (respond a, m)
  | .error kind => .error kind

/-- The response `ok` of a request that gives a new table. -/
def changed (r : Except FaultKind Memory) : Except FaultKind (Response × Memory) :=
  match r with
  | .ok m => .ok (.ok, m)
  | .error kind => .error kind

/-- One transaction: the response and the table after it, or a fault (R63). -/
def Memory.transact (cfg : Config) (m : Memory) : Request → Except FaultKind (Response × Memory)
  | .fetch off => unchanged m Response.word (m.segRead 0 off)
  | .read id off => unchanged m Response.word (m.segRead id off)
  | .write id off v => changed (m.segWrite id off v)
  | .alloc len =>
    match m.segAlloc cfg len with
    | .ok (id, m') => .ok (.ident id, m')
    | .error kind => .error kind
  | .free id => changed (m.segFree id)
  | .dup src => changed (m.segDup cfg src)
  | .loadInitial words => changed (Memory.segLoadInitial cfg words)
  | .releaseAll => .ok (.ok, m.segReleaseAll)

/-- The table after a request: "A response that carries a fault has no effect on memory" (R63). -/
def Memory.after (cfg : Config) (m : Memory) (q : Request) : Memory :=
  match m.transact cfg q with
  | .ok (_, m') => m'
  | .error _ => m

/-- The table after a sequence of requests, one at a time (R64, R65). -/
def Memory.replay (cfg : Config) : Memory → List Request → Memory
  | m, [] => m
  | m, q :: rest => Memory.replay cfg (m.after cfg q) rest

/-- The execute transaction of an instruction, if it has one (R64). -/
def executeRequest (s : State) : Instr → Option Request
  | .cmov _ _ _ => none
  | .sload _ b c => some (.read (s.reg b) (s.reg c))
  | .sstore a b c => some (.write (s.reg a) (s.reg b) (s.reg c))
  | .add _ _ _ => none
  | .mul _ _ _ => none
  | .div _ _ _ => none
  | .nand _ _ _ => none
  | .halt => some .releaseAll
  | .alloc _ c => some (.alloc (s.reg c))
  | .free c => some (.free (s.reg c))
  | .output _ => none
  | .input _ => none
  | .loadp b _ => some (.dup (s.reg b))
  | .loadi _ _ => none

/-- The execute transactions that follow the fetch of a word: at most one (R64). -/
def executeRequests (s : State) (w : Word) : List Request :=
  match decode w with
  | .ok i => (executeRequest s i).toList
  | .error _ => []

/-- The transactions that one step from `s` issues, in the order they are granted (R64). -/
def State.transactions (s : State) : List Request :=
  match s.run with
  | .loading =>
    match s.image with
    | some bytes =>
      match imageWords bytes with
      | .ok words => [.loadInitial words]
      | .error _ => []
    | none => []
  | .running =>
    .fetch s.pc ::
      (match s.fetch with
       | .ok w => executeRequests s w
       | .error _ => [])
  | .halted => []
  | .faulted => []

/-- The arbiter's rule: the loader only in LOADING, and in RUNNING a fetch at any time, but an execute
transaction only right after a fetch (R64). -/
def arbiterGrants (run : RunState) (last : Option Requester) : Requester → Bool
  | .hostLoader => run = .loading
  | .fetchUnit => run = .running
  | .executeUnit => run = .running && last = some .fetchUnit

/-- Every request of a sequence is granted in its turn. -/
def grantedInOrder (run : RunState) : Option Requester → List Request → Bool
  | _, [] => true
  | last, q :: rest => arbiterGrants run last q.issuer && grantedInOrder run (some q.issuer) rest

end Sys2Proof.Machine
end

