-- ==== Sys2Proof/Machine/Status.lean ====
section
/-! DEFINITION. What the host reads: the status fields, the exit status and the observation at the end of a
run (spec/10_state.md rule R32, 60_exceptions.md rules R182 and R196, 70_reset_and_hazards.md rule
R214). No instruction reads any of it. -/

namespace Sys2Proof.Machine

/-- RUN_STATE, 2 bits (R32). -/
def RunState.code : RunState → BitVec 2
  | .loading => 0
  | .running => 1
  | .halted => 2
  | .faulted => 3

/-- The fault codes, 4 bits (R182). -/
def FaultKind.code : FaultKind → BitVec 4
  | .invalidSegment => 1
  | .outOfBounds => 2
  | .divisionByZero => 3
  | .invalidOutput => 4
  | .unknownOpcode => 5
  | .malformedProgram => 6
  | .resourceExhausted => 7

/-- FAULT_KIND: 0 when no fault is recorded (R32, R182). -/
def faultKindField : Option FaultKind → BitVec 4
  | none => 0
  | some kind => kind.code

/-- The three read-only status fields of R32. -/
structure Status where
  runState  : BitVec 2
  faultKind : BitVec 4
  faultPc   : BitVec 32
  deriving DecidableEq, Repr

/-- The status the host reads (R32). -/
def State.status (s : State) : Status :=
  { runState := s.run.code, faultKind := faultKindField s.fkind, faultPc := s.fpc }

/-- The exit status of a run that has ended (R196): 0 for HALTED, FAULT_EXIT_STATUS for FAULTED. -/
def State.exitStatus (s : State) : Option Nat :=
  match s.run with
  | .loading => none
  | .running => none
  | .halted => some 0
  | .faulted => some s.cfg.faultExitStatus

/-- The observation at the end of a run (R214). It does not hold pc (R25). -/
structure Observation where
  status : Status
  out    : List Byte
  x      : Vector Word 8
  mem    : Memory
  exit   : Nat
  deriving DecidableEq, Repr

/-- The observation of a state in which the run has ended, and none before (R214). -/
def State.observation (s : State) : Option Observation :=
  match s.exitStatus with
  | some exit => some { status := s.status, out := s.out, x := s.x, mem := s.mem, exit := exit }
  | none => none

end Sys2Proof.Machine
end

