-- ==== Sys2Proof/Safety.lean ====
section
/-! DEFINITION. The terms claims use: bits of a word, runs, the invariant of the machine, what a recorded
fatal error is, and the register use table of R22. -/

namespace Sys2Proof

/-- `w[hi:lo]`, with bit 0 the least significant (R10), as a number. -/
def wordBits (w : Word) (hi lo : Nat) : Nat := (w.extractLsb hi lo).toNat

/-- The three bits of a word from `lo` up, as a register index (R21, R72, R74). -/
def registerBits (w : Word) (lo : Nat) : Reg := (w.extractLsb' lo 3).toFin

/-- The standard-layout instruction of an opcode and its fields A, B and C (R76, R80); `none` for 13, 14
and 15. The numbering 0 to 12 is decision D5 of the spec. -/
def standardInstr (op : Nat) (a b c : Reg) : Option Instr :=
  match op with
  | 0 => some (.cmov a b c)
  | 1 => some (.sload a b c)
  | 2 => some (.sstore a b c)
  | 3 => some (.add a b c)
  | 4 => some (.mul a b c)
  | 5 => some (.div a b c)
  | 6 => some (.nand a b c)
  | 7 => some .halt
  | 8 => some (.alloc b c)
  | 9 => some (.free c)
  | 10 => some (.output c)
  | 11 => some (.input c)
  | 12 => some (.loadp b c)
  | _ => none

/-- The bits of an instruction word that its operation uses: the others are ignored (R73, R74, R78). -/
def Instr.usedBits : Instr → Word
  | .cmov _ _ _ => 0xF00001FF
  | .sload _ _ _ => 0xF00001FF
  | .sstore _ _ _ => 0xF00001FF
  | .add _ _ _ => 0xF00001FF
  | .mul _ _ _ => 0xF00001FF
  | .div _ _ _ => 0xF00001FF
  | .nand _ _ _ => 0xF00001FF
  | .halt => 0xF0000000
  | .alloc _ _ => 0xF000003F
  | .free _ => 0xF0000007
  | .output _ => 0xF0000007
  | .input _ => 0xF0000007
  | .loadp _ _ => 0xF000003F
  | .loadi _ _ => 0xFFFFFFFF

/-- The registers an instruction reads (R22). -/
def Instr.reads : Instr → List Reg
  | .cmov _ b c => [b, c]
  | .sload _ b c => [b, c]
  | .sstore a b c => [a, b, c]
  | .add _ b c => [b, c]
  | .mul _ b c => [b, c]
  | .div _ b c => [b, c]
  | .nand _ b c => [b, c]
  | .halt => []
  | .alloc _ c => [c]
  | .free c => [c]
  | .output c => [c]
  | .input _ => []
  | .loadp b c => [b, c]
  | .loadi _ _ => []

/-- The registers an instruction may write (R22). -/
def Instr.writes : Instr → List Reg
  | .cmov a _ _ => [a]
  | .sload a _ _ => [a]
  | .sstore _ _ _ => []
  | .add a _ _ => [a]
  | .mul a _ _ => [a]
  | .div a _ _ => [a]
  | .nand a _ _ => [a]
  | .halt => []
  | .alloc b _ => [b]
  | .free _ => []
  | .output _ => []
  | .input c => [c]
  | .loadp _ _ => []
  | .loadi a _ => [a]

namespace Machine

/-- `t` is `s` with a fatal error recorded (R107, R181): the registers, the Segment Table, the input and
the output are as they were. pc is left out: it is not observable after a fault (R107). -/
structure FaultRecorded (kind : FaultKind) (offset : Word) (s t : State) : Prop where
  run   : t.run = .faulted
  fkind : t.fkind = some kind
  fpc   : t.fpc = offset
  x     : t.x = s.x
  mem   : t.mem = s.mem
  inp   : t.inp = s.inp
  out   : t.out = s.out
  image : t.image = s.image
  cfg   : t.cfg = s.cfg

/-- The pool holds exactly the identifiers of the unmapped slots, each once (R50, R52). -/
structure PoolExact (m : Memory) : Prop where
  nodup    : m.pool.Nodup
  unmapped : ∀ id ∈ m.pool, m.seg[id.toNat]? = some .unmapped
  pooled   : ∀ n < m.seg.length, m.seg[n]? = some .unmapped → BitVec.ofNat 32 n ∈ m.pool

/-- The table keeps the limits of R55. It always holds segment 0 once it is loaded, whatever
MAX_SEGMENTS is (R49 does not check it; notes/assumptions/11). -/
structure WithinLimits (cfg : Config) (m : Memory) : Prop where
  slots : m.seg.length ≤ max 1 cfg.maxSegments
  words : m.usedWords ≤ cfg.memCapacityWords
  each  : ∀ sg, Slot.mapped sg ∈ m.seg → sg.len ≤ cfg.maxSegWords

/-- The invariant of the machine. Four things in it are the model's own and in no rule: the canonical form
(notes/assumptions/1), the reset value of ipc inside `atReset` (2), the offered image in `atReset` and
`answered` (4), and the one slot that `limits` allows when MAX_SEGMENTS is 0 (11). -/
structure State.Inv (s : State) : Prop where
  /-- Equal memories are equal data (the model's form, notes/assumptions/1). -/
  canonical : s.mem.wf = true
  limits    : WithinLimits s.cfg s.mem
  pool      : PoolExact s.mem
  /-- R50: once loaded, segment 0 is mapped until the run ends. -/
  segment0  : s.run = .running ∨ s.run = .halted → s.mem.valid 0 = true
  /-- R39, R200: LOADING is the state after reset, with an image offered or not; the value of ipc in it and the
  offered image are the model's (notes/assumptions/2 and 4). -/
  atReset   : s.run = .loading → s = { State.resetWith s.cfg s.inp with image := s.image }
  /-- An offered image is answered before the run starts: about the model's own field
  (notes/assumptions/4). -/
  answered  : s.run ≠ .loading → s.image = none
  /-- R32: FAULT_KIND is recorded exactly when the run state is FAULTED. -/
  kind      : s.fkind.isSome = true ↔ s.run = .faulted
  /-- R32: FAULT_PC is written only then. -/
  faultPc   : s.run ≠ .faulted → s.fpc = 0

/-- `t` is reached from `s` by steps of the machine (R108, R214). -/
inductive Reaches : State → State → Prop where
  | refl (s : State) : Reaches s s
  | step {s t u : State} (first : Machine.step s = .next t) (rest : Reaches t u) : Reaches s u

/-- A run has ended (R108). -/
def State.ended (s : State) : Bool := s.run = .halted || s.run = .faulted

/-- A safe step: it happens, and it raises no fatal error. -/
def SafeStep (s : State) : Prop := ∃ t, Machine.step s = .next t ∧ t.run ≠ .faulted

/-- No live segment has this identifier (R42, R43): it is at or beyond the table size, or its slot is
unmapped. -/
def NotMapped (m : Memory) (id : Word) : Prop := ∀ sg, m.seg[id.toNat]? ≠ some (.mapped sg)

end Machine

end Sys2Proof
end

