-- ==== Sys2Proof/Certificates/Slice0/Obligations.lean ====
section
/-! DEFINITION. The statements for the provers, in the order of the spec's files. `s.x[r]` is the spec's
x[r], `{ s with … }` is a state that differs from `s` in the named fields only, so every effect statement
is its own frame. pc after a halt or a fault is in no statement: "no claim may read it" (R25, R107).
Where the spec marks a rule as its own decision (D<n>) or derivation, the statement is 'derived'. -/

open Sys2Proof Sys2Proof.Machine

/-! ### Encoding (30_encoding.md) -/

/-- Words of every family, written out from R72, R74 and R76 (95_test_vectors.md E1 to E12 and the
encodings of R120 to R171). The opcode numbers 0 to 12 are the spec's decision D5. -/
def Obligations.SampleWordsDecode : Prop :=
  decode 0x00000053 = .ok (.cmov 1 2 3) ∧ decode 0x0FFFFE53 = .ok (.cmov 1 2 3) ∧
  decode 0x30000180 = .ok (.add 6 0 0) ∧ decode 0x4000004A = .ok (.mul 1 1 2) ∧
  decode 0x10000143 = .ok (.sload 5 0 3) ∧ decode 0x20000019 = .ok (.sstore 0 3 1) ∧
  decode 0x8000001A = .ok (.alloc 3 2) ∧ decode 0x90000003 = .ok (.free 3) ∧
  decode 0x7FFFFFFF = .ok .halt ∧ decode 0xC0000004 = .ok (.loadp 0 4) ∧
  decode 0xA0000003 = .ok (.output 3) ∧ decode 0xB0000001 = .ok (.input 1) ∧
  decode 0xDFFFFFFF = .ok (.loadi 7 0x1FFFFFF) ∧ decode 0xD5000000 = .ok (.loadi 2 0x1000000) ∧
  decode 0xE0000000 = .error .unknownOpcode

/-- R72, R76, R80: every word with opcode 0 to 12 is the operation of that opcode with A = w[8:6],
B = w[5:3] and C = w[2:0], whatever stands in bits 27:9. The numbering is the spec's decision D5. -/
def Obligations.DecodeReadsTheStandardLayout : Prop :=
  ∀ (w : Word) (i : Instr),
    standardInstr (wordBits w 31 28) (registerBits w 6) (registerBits w 3) (registerBits w 0) = some i →
    decode w = .ok i

/-- R74: the load-immediate layout, used by opcode 13 only, in which every bit counts. -/
def Obligations.LoadImmediateLayoutUsesEveryBit : Prop :=
  ∀ w : Word,
    (wordBits w 31 28 = 13 → decode w = .ok (.loadi (registerBits w 25) (wordBits w 24 0))) ∧
    (∀ a imm, decode w = .ok (.loadi a imm) → wordBits w 31 28 = 13) ∧
    (∀ w' : Word, wordBits w 31 28 = 13 → wordBits w' 31 28 = 13 → decode w' = decode w → w' = w)

/-- R77: the words with opcode 14 or 15, that is w ≥ 0xE0000000, are the only invalid encodings, and a
step that fetches one raises UnknownOpcode (the state FAULTED and its kind: the spec's decisions D4, D6). -/
def Obligations.OnlyOpcodes14And15AreInvalid : Prop :=
  ∀ w : Word,
    (decode w = .error .unknownOpcode ↔ 14 ≤ wordBits w 31 28) ∧
    (14 ≤ wordBits w 31 28 ↔ 0xE0000000 ≤ w.toNat) ∧
    (∀ s : State, s.run = .running → s.mem.segRead 0 s.pc = .ok w → 14 ≤ wordBits w 31 28 →
      ∃ t, step s = .next t ∧ t.run = .faulted ∧ t.fkind = some .unknownOpcode)

/-- R81: decoding the canonical word of a well-formed instruction gives it back, for every operand value. -/
def Obligations.DecodeOfEncodeIsTheInstruction : Prop :=
  ∀ i : Instr, i.wellFormed = true → decode (encode i) = .ok i

/-- R73 and R78: a word that decodes is the canonical word of its instruction but for the ignored bits,
and the ignored bits have no effect on decoding. -/
def Obligations.DecodedWordIsCanonicalUpToIgnoredBits : Prop :=
  ∀ (w : Word) (i : Instr), decode w = .ok i →
    i.wellFormed = true ∧ encode i = w &&& i.usedBits ∧
    ∀ w' : Word, w' &&& i.usedBits = w &&& i.usedBits → decode w' = .ok i

/-- R87, the codec's round trip, for every width and position in its contract. -/
def Obligations.CodecReadsBackWhatItInserts : Prop :=
  ∀ (word : Codec.Container) (w lsb : Nat) (v : Int), Codec.inContract w lsb = true →
    Codec.fitsUnsigned v w = true →
    ∃ word', Codec.newUnsigned word w lsb v = .ok word' ∧
      Codec.getUnsigned word' w lsb = .ok v.toNat

/-- R83 to R86: insertion leaves the bits outside the field alone, a signed value reads back, a value that
does not fit fails with Overflow, a zero-width write is a no-op (D21), and a call outside the contract is
refused (D26). -/
def Obligations.CodecInsertsOnlyIntoItsField : Prop :=
  ∀ (word : Codec.Container) (w lsb : Nat) (v : Int),
    (∀ word', (Codec.newUnsigned word w lsb v = .ok word' ∨ Codec.newSigned word w lsb v = .ok word') →
      ∀ k, k < lsb ∨ lsb + w ≤ k → word'.getLsbD k = word.getLsbD k) ∧
    (Codec.inContract w lsb = true → 0 < w → Codec.fitsSigned v w = true →
      ∃ word', Codec.newSigned word w lsb v = .ok word' ∧ Codec.getSigned word' w lsb = .ok v) ∧
    (Codec.inContract w lsb = true → 0 < w → Codec.fitsUnsigned v w = false →
      Codec.newUnsigned word w lsb v = .error .overflow) ∧
    (Codec.inContract w lsb = true → 0 < w → Codec.fitsSigned v w = false →
      Codec.newSigned word w lsb v = .error .overflow) ∧
    (Codec.inContract w lsb = true → w = 0 →
      Codec.newUnsigned word w lsb v = .ok word ∧ Codec.newSigned word w lsb v = .ok word) ∧
    (Codec.inContract w lsb = false → Codec.newUnsigned word w lsb v = .error .outsideContract ∧
      Codec.newSigned word w lsb v = .error .outsideContract ∧
      Codec.getUnsigned word w lsb = .error .outsideContract ∧
      Codec.getSigned word w lsb = .error .outsideContract)

/-- R81, R85: the encoder built with the codec gives the formula's word for a well-formed instruction and
rejects an ill-formed one (an immediate of 2^25 or more) with Overflow. -/
def Obligations.CodecEncoderAgreesWithTheFormula : Prop :=
  ∀ i : Instr,
    (i.wellFormed = true → codecEncode i = .ok ((encode i).setWidth 64)) ∧
    (i.wellFormed = false → codecEncode i = .error .overflow)

/-- R90: `nop` changes nothing, `not` complements, and `jmp` is a pure jump while x[0] = 0; each is the one
word of R90. The pseudo-instructions are the spec's decision D15. -/
def Obligations.PseudoInstructionsAreExact : Prop :=
  ∀ (a b c : Reg) (s : State),
    encode .nop = 0x00000000 ∧ encode (.bitNot a b) = enc3 6 a b b ∧ encode (.jmp c) = enc3 12 0 0 c ∧
    exec .nop s = .next s ∧
    exec (.bitNot a b) s = .next { s with x := s.x.set a (~~~ s.x[b]) } ∧
    (s.x[0] = 0 → ¬ NotMapped s.mem 0 → exec (.jmp c) s = .next { s with pc := s.x[c] })

/-! ### The step (10_state.md, 40_engine.md) -/

/-- R101 to R106: a RUNNING step is the meaning of the decoded instruction, in the state in which ipc holds
the instruction's offset and pc that plus 1. -/
def Obligations.StepRunsTheDecodedInstruction : Prop :=
  ∀ (s : State) (w : Word) (i : Instr), s.run = .running → s.mem.segRead 0 s.pc = .ok w →
    decode w = .ok i → step s = exec i { s with ipc := s.pc, pc := s.pc + 1 }

/-- R101, R184: a fetch at or beyond the length of segment 0 is OutOfBounds with FAULT_PC = pc. With
segment 0 mapped, a fetch never raises InvalidSegment. -/
def Obligations.FetchPastSegment0IsOutOfBounds : Prop :=
  ∀ (s : State) (sg : Segment), s.run = .running → s.mem.seg[0]? = some (.mapped sg) →
    s.mem.segRead 0 s.pc ≠ .error .invalidSegment ∧
    (sg.len ≤ s.pc.toNat → ∃ t, step s = .next t ∧ FaultRecorded .outOfBounds s.pc s t)

/-- R31, R108, R160 (run states: D4): the transitions a step can make, and HALTED is reached by halt only. -/
def Obligations.RunStateTransitionsAreTheListedOnes : Prop :=
  ∀ s t : State, step s = .next t →
    (s.run = .loading ∧ (t.run = .running ∨ t.run = .faulted)) ∨
    (s.run = .running ∧ (t.run = .running ∨ t.run = .faulted ∨
      (t.run = .halted ∧ ∃ w, s.mem.segRead 0 s.pc = .ok w ∧ decode w = .ok .halt)))

/-- R31, R100 (D4): HALTED and FAULTED are terminal, and LOADING takes no step before an image is offered.
The offered image and the named faults are the model's choices (notes/assumptions/4 and 7, DESIGN CHOICE). -/
def Obligations.EndedRunsTakeNoStep : Prop :=
  (∀ s t : State, s.ended = true → Reaches s t → t = s) ∧
  (∀ s : State, s.run = .halted → step s = .fault .halted) ∧
  (∀ s : State, s.run = .faulted → step s = .fault .faulted) ∧
  (∀ s : State, s.run = .loading → s.image = none → step s = .fault .awaitingImage)

/-- R105: the next pc of a run that goes on is x[C] for load-program and ipc + 1 for every other
instruction. -/
def Obligations.OnlyLoadProgramRedirectsPc : Prop :=
  ∀ (s t : State) (w : Word) (i : Instr), s.run = .running → s.mem.segRead 0 s.pc = .ok w →
    decode w = .ok i → step s = .next t → t.run = .running →
    (∀ b c, i = .loadp b c → t.pc = s.x[c]) ∧ ((∀ b c, i ≠ .loadp b c) → t.pc = s.pc + 1)

/-- R107, R181 (precision: D7, the report: D6): a RUNNING step completes, or it is a fatal error that leaves
registers, table, input and output as they were and records the instruction's offset. -/
def Obligations.FaultingStepIsPrecise : Prop :=
  ∀ s : State, s.run = .running →
    (SafeStep s ∨ ∃ t kind, step s = .next t ∧ FaultRecorded kind s.pc s t) ∧
    ∀ t, step s = .next t → t.run = .faulted → ∃ kind, FaultRecorded kind s.pc s t

/-- R22, R106: an instruction reads and writes the registers of R22's table only. Two states that differ
only in registers the instruction does not read give the same effect. The opcode column is D5's. -/
def Obligations.RegistersNotListedAreNotUsed : Prop :=
  ∀ (i : Instr) (s s' : State), s' = { s with x := s'.x } → (∀ r ∈ i.reads, s'.x[r] = s.x[r]) →
    ∃ t t', exec i s = .next t ∧ exec i s' = .next t' ∧ t' = { t with x := t'.x } ∧
      ((∀ r ∈ i.writes, t'.x[r] = t.x[r]) ∨ (t.x = s.x ∧ t'.x = s'.x)) ∧
      ∀ r, r ∉ i.writes → t.x[r] = s.x[r] ∧ t'.x[r] = s'.x[r]

/-! ### Effects of the 14 operations (41 to 46) -/

/-- R120. -/
def Obligations.CmovMovesWhenTheConditionIsNonZero : Prop :=
  ∀ (a b c : Reg) (s : State),
    (s.x[c] ≠ 0 → exec (.cmov a b c) s = .next { s with x := s.x.set a s.x[b] }) ∧
    (s.x[c] = 0 → exec (.cmov a b c) s = .next s)

/-- R121, with its encoding: opcode 13, A = w[27:25], imm = w[24:0], zero-extended. -/
def Obligations.LoadiWritesTheZeroExtendedImmediate : Prop :=
  ∀ (w : Word) (s : State), wordBits w 31 28 = 13 →
    decode w = .ok (.loadi (registerBits w 25) (wordBits w 24 0)) ∧
    exec (.loadi (registerBits w 25) (wordBits w 24 0)) s =
      .next { s with x := s.x.set (registerBits w 25) ((w.extractLsb 24 0).zeroExtend 32) }

/-- R130. -/
def Obligations.AddWritesTheSumModulo2Pow32 : Prop :=
  ∀ (a b c : Reg) (s : State), ∃ v : Word,
    exec (.add a b c) s = .next { s with x := s.x.set a v } ∧
    v.toNat = (s.x[b].toNat + s.x[c].toNat) % 2 ^ 32

/-- R131. -/
def Obligations.MulWritesTheProductModulo2Pow32 : Prop :=
  ∀ (a b c : Reg) (s : State), ∃ v : Word,
    exec (.mul a b c) s = .next { s with x := s.x.set a v } ∧
    v.toNat = s.x[b].toNat * s.x[c].toNat % 2 ^ 32

/-- R132: the unsigned quotient for a divisor that is not 0. -/
def Obligations.DivWritesTheUnsignedQuotient : Prop :=
  ∀ (a b c : Reg) (s : State), s.x[c] ≠ 0 → ∃ v : Word,
    exec (.div a b c) s = .next { s with x := s.x.set a v } ∧
    v.toNat = s.x[b].toNat / s.x[c].toNat

/-- R133: bit by bit. -/
def Obligations.NandWritesTheComplementOfTheAnd : Prop :=
  ∀ (a b c : Reg) (s : State), ∃ v : Word,
    exec (.nand a b c) s = .next { s with x := s.x.set a v } ∧
    ∀ k, k < 32 → v.getLsbD k = !(s.x[b].getLsbD k && s.x[c].getLsbD k)

/-- R140: x[A] gets word x[C] of segment x[B], seen as the list of words it is (R41). That this holds of
x[B] = 0xFFFFFFFF too, in a table of 2^32 slots, is the model's choice against a corner case of R140
(notes/assumptions/17, DESIGN CHOICE). -/
def Obligations.SloadReadsTheAddressedWord : Prop :=
  ∀ (a b c : Reg) (s : State) (sg : Segment) (v : Word),
    s.mem.seg[s.x[b].toNat]? = some (.mapped sg) → sg.words[s.x[c].toNat]? = some v →
    exec (.sload a b c) s = .next { s with x := s.x.set a v }

/-- R141: word x[B] of segment x[A] becomes x[C]; every other word reads as before, the pool, the table size
and everything outside the table are unchanged. The premise `s.mem.wf` is the model's canonical form
(notes/assumptions/1, DEDUCED); identifier 0xFFFFFFFF is as notes/assumptions/17 (DESIGN CHOICE) says. -/
def Obligations.SstoreWritesTheAddressedWord : Prop :=
  ∀ (a b c : Reg) (s : State) (sg : Segment), s.mem.wf = true →
    s.mem.seg[s.x[a].toNat]? = some (.mapped sg) → s.x[b].toNat < sg.len →
    ∃ m, exec (.sstore a b c) s = .next { s with mem := m } ∧
      m.segRead s.x[a] s.x[b] = .ok s.x[c] ∧
      (∀ id off, id ≠ s.x[a] ∨ off ≠ s.x[b] → m.segRead id off = s.mem.segRead id off) ∧
      m.pool = s.mem.pool ∧ m.seg.length = s.mem.seg.length

/-- R150, R46: within the limits (D8), x[B] gets the pool's top or else the table size, that identifier
names x[C] zero words, and every other identifier reads as before. The premise `s.Inv` is the invariant of
StepKeepsTheInvariant, with the model's choices named there; that the identifier can be 0xFFFFFFFF is
notes/assumptions/17 (DESIGN CHOICE). -/
def Obligations.AllocReturnsAZeroFilledSegment : Prop :=
  ∀ (b c : Reg) (s : State), s.Inv → s.x[c].toNat ≤ s.cfg.maxSegWords →
    s.mem.usedWords + s.x[c].toNat ≤ s.cfg.memCapacityWords →
    (s.mem.pool = [] → s.mem.seg.length < s.cfg.maxSegments) →
    ∃ (id : Word) (m : Memory),
      exec (.alloc b c) s = .next { s with x := s.x.set b id, mem := m } ∧
      (∀ top rest, s.mem.pool = top :: rest →
        id = top ∧ m.pool = rest ∧ m.seg.length = s.mem.seg.length) ∧
      (s.mem.pool = [] →
        id.toNat = s.mem.seg.length ∧ m.pool = [] ∧ m.seg.length = s.mem.seg.length + 1) ∧
      (∀ off : Word, m.segRead id off =
        if off.toNat < s.x[c].toNat then .ok 0 else .error .outOfBounds) ∧
      (∀ id' off, id' ≠ id → m.segRead id' off = s.mem.segRead id' off)

/-- R151, R47: the segment is unmapped, its identifier becomes the pool's top, and every other identifier
reads as before. Identifier 0xFFFFFFFF is as notes/assumptions/17 (DESIGN CHOICE) says. -/
def Obligations.FreeUnmapsAndPoolsTheSegment : Prop :=
  ∀ (c : Reg) (s : State) (sg : Segment), s.x[c] ≠ 0 →
    s.mem.seg[s.x[c].toNat]? = some (.mapped sg) →
    ∃ m, exec (.free c) s = .next { s with mem := m } ∧
      m.pool = s.x[c] :: s.mem.pool ∧ m.seg.length = s.mem.seg.length ∧
      (∀ off, m.segRead s.x[c] off = .error .invalidSegment) ∧
      (∀ id off, id ≠ s.x[c] → m.segRead id off = s.mem.segRead id off)

/-- R160 (final memory: D13): the machine is HALTED and everything else an observer reads is unchanged. -/
def Obligations.HaltStopsTheMachine : Prop :=
  ∀ s : State, ∃ t, exec .halt s = .next t ∧ t.run = .halted ∧ t.x = s.x ∧ t.mem = s.mem ∧
    t.inp = s.inp ∧ t.out = s.out ∧ t.fkind = s.fkind ∧ t.fpc = s.fpc ∧
    t.image = s.image ∧ t.cfg = s.cfg

/-- R161, R48: pc becomes x[C]; with x[B] = 0 nothing else changes; otherwise, within the capacity (D8),
segment 0 reads as segment x[B] does, which with every other identifier reads as before. Identifier
0xFFFFFFFF is as notes/assumptions/17 (DESIGN CHOICE) says. -/
def Obligations.LoadpCopiesTheSegmentAndJumps : Prop :=
  ∀ (b c : Reg) (s : State) (sg : Segment), s.mem.seg[s.x[b].toNat]? = some (.mapped sg) →
    (s.x[b] = 0 → exec (.loadp b c) s = .next { s with pc := s.x[c] }) ∧
    (∀ old, s.x[b] ≠ 0 → s.mem.seg[0]? = some (.mapped old) →
      s.mem.usedWords - old.len + sg.len ≤ s.cfg.memCapacityWords →
      ∃ m, exec (.loadp b c) s = .next { s with mem := m, pc := s.x[c] } ∧
        (∀ off, m.segRead 0 off = s.mem.segRead s.x[b] off) ∧
        (∀ id off, id ≠ 0 → m.segRead id off = s.mem.segRead id off) ∧
        m.pool = s.mem.pool ∧ m.seg.length = s.mem.seg.length)

/-- R170: a value of at most 255 is emitted as one byte after those emitted before. -/
def Obligations.OutputEmitsTheByte : Prop :=
  ∀ (c : Reg) (s : State), s.x[c].toNat ≤ 255 → ∃ b : Byte,
    exec (.output c) s = .next { s with out := s.out ++ [b] } ∧ b.toNat = s.x[c].toNat

/-- R171, R174 (sticky end of input: D11): the next byte of the input zero-extended, or 0xFFFFFFFF when the
input is used up. -/
def Obligations.InputReadsTheNextByteOrEof : Prop :=
  ∀ (c : Reg) (s : State),
    (∀ b rest, s.inp = b :: rest → ∃ v : Word,
      exec (.input c) s = .next { s with x := s.x.set c v, inp := rest } ∧ v.toNat = b.toNat) ∧
    (s.inp = [] → exec (.input c) s = .next { s with x := s.x.set c 0xFFFFFFFF })

/-- R134: subtraction, remainder and shifts made of the four operations. -/
def Obligations.ArithmeticLawsOfTheFourOperations : Prop :=
  ∀ b c : Word,
    aluAdd (aluAdd b (aluNand c c)) 1 = b - c ∧
    (c ≠ 0 → ∃ q, aluDiv b c = .ok q ∧
      (aluAdd (aluAdd b (aluNand (aluMul q c) (aluMul q c))) 1).toNat = b.toNat % c.toNat) ∧
    (∀ k, k < 32 → aluMul b (BitVec.ofNat 32 (2 ^ k)) = b <<< k ∧
      aluDiv b (BitVec.ofNat 32 (2 ^ k)) = .ok (b >>> k))

/-! ### Fatal errors of the operations (60_exceptions.md) -/

/-- R183 (report: D6, precision: D7): an identifier with no live segment, and freeing 0. -/
def Obligations.InvalidSegmentIsRaised : Prop :=
  ∀ (a b c : Reg) (s : State),
    (NotMapped s.mem s.x[b] →
      ∃ t, exec (.sload a b c) s = .next t ∧ FaultRecorded .invalidSegment s.ipc s t) ∧
    (NotMapped s.mem s.x[a] →
      ∃ t, exec (.sstore a b c) s = .next t ∧ FaultRecorded .invalidSegment s.ipc s t) ∧
    (s.x[c] = 0 ∨ NotMapped s.mem s.x[c] →
      ∃ t, exec (.free c) s = .next t ∧ FaultRecorded .invalidSegment s.ipc s t) ∧
    (NotMapped s.mem s.x[b] →
      ∃ t, exec (.loadp b c) s = .next t ∧ FaultRecorded .invalidSegment s.ipc s t)

/-- R184 (D6, D7): an offset at or beyond the length of a live segment. Identifier 0xFFFFFFFF is as
notes/assumptions/17 (DESIGN CHOICE) says. -/
def Obligations.OutOfBoundsIsRaised : Prop :=
  ∀ (a b c : Reg) (s : State) (sg : Segment),
    (s.mem.seg[s.x[b].toNat]? = some (.mapped sg) → sg.len ≤ s.x[c].toNat →
      ∃ t, exec (.sload a b c) s = .next t ∧ FaultRecorded .outOfBounds s.ipc s t) ∧
    (s.mem.seg[s.x[a].toNat]? = some (.mapped sg) → sg.len ≤ s.x[b].toNat →
      ∃ t, exec (.sstore a b c) s = .next t ∧ FaultRecorded .outOfBounds s.ipc s t)

/-- R185 (D6, D7): a divisor of 0, whatever the dividend. -/
def Obligations.DivisionByZeroIsRaised : Prop :=
  ∀ (a b c : Reg) (s : State), s.x[c] = 0 →
    ∃ t, exec (.div a b c) s = .next t ∧ FaultRecorded .divisionByZero s.ipc s t

/-- R186 (D6, D7): a value above 255, and no byte is emitted. -/
def Obligations.InvalidOutputIsRaised : Prop :=
  ∀ (c : Reg) (s : State), 255 < s.x[c].toNat →
    ∃ t, exec (.output c) s = .next t ∧ FaultRecorded .invalidOutput s.ipc s t

/-- R189 (D6, D7): a fetched word with opcode 14 or 15, with FAULT_PC the word's offset. -/
def Obligations.UnknownOpcodeIsRaised : Prop :=
  ∀ (s : State) (w : Word), s.run = .running → s.mem.segRead 0 s.pc = .ok w →
    14 ≤ wordBits w 31 28 → ∃ t, step s = .next t ∧ FaultRecorded .unknownOpcode s.pc s t

/-- R191, R55 (the whole rule is D8's): each limit, in allocate-segment and load-program. -/
def Obligations.ResourceExhaustedIsRaised : Prop :=
  ∀ (b c : Reg) (s : State),
    (s.cfg.maxSegWords < s.x[c].toNat ∨ s.cfg.memCapacityWords < s.mem.usedWords + s.x[c].toNat ∨
        (s.mem.pool = [] ∧ s.cfg.maxSegments ≤ s.mem.seg.length) →
      ∃ t, exec (.alloc b c) s = .next t ∧ FaultRecorded .resourceExhausted s.ipc s t) ∧
    (∀ sg old, s.x[b] ≠ 0 → s.mem.seg[s.x[b].toNat]? = some (.mapped sg) →
      s.mem.seg[0]? = some (.mapped old) →
      s.cfg.memCapacityWords < s.mem.usedWords - old.len + sg.len →
      ∃ t, exec (.loadp b c) s = .next t ∧ FaultRecorded .resourceExhausted s.ipc s t)

/-! ### Segment memory (20_memory.md) -/

/-- R44: the order of the checks and the word read, a segment seen as the list of words it is (R41). -/
def Obligations.SegReadChecksThenReads : Prop :=
  ∀ (m : Memory) (id off : Word),
    (NotMapped m id → m.segRead id off = .error .invalidSegment) ∧
    (∀ sg, m.seg[id.toNat]? = some (.mapped sg) → sg.len ≤ off.toNat →
      m.segRead id off = .error .outOfBounds) ∧
    (∀ sg v, m.seg[id.toNat]? = some (.mapped sg) → sg.words[off.toNat]? = some v →
      m.segRead id off = .ok v)

/-- R45: the same checks; the word is replaced and nothing else, so the segment keeps its length. The premise
`m.wf` and the conclusion `sg'.wf` are the model's canonical form, which R45 does not speak of
(notes/assumptions/1, DEDUCED). -/
def Obligations.SegWriteChecksThenReplacesTheWord : Prop :=
  ∀ (m : Memory) (id off v : Word), m.wf = true →
    (NotMapped m id → m.segWrite id off v = .error .invalidSegment) ∧
    (∀ sg, m.seg[id.toNat]? = some (.mapped sg) → sg.len ≤ off.toNat →
      m.segWrite id off v = .error .outOfBounds) ∧
    (∀ sg, m.seg[id.toNat]? = some (.mapped sg) → off.toNat < sg.len →
      ∃ sg' : Segment, m.segWrite id off v = .ok { m with seg := m.seg.set id.toNat (.mapped sg') } ∧
        sg'.words = sg.words.set off.toNat v ∧ sg'.wf = true)

/-- R47: freeing 0 or an identifier that is not valid raises InvalidSegment; otherwise the slot becomes
unmapped and the identifier is pushed, so a second free raises InvalidSegment. -/
def Obligations.SegFreeUnmapsAndPushes : Prop :=
  ∀ (m : Memory) (id : Word),
    (id = 0 ∨ NotMapped m id → m.segFree id = .error .invalidSegment) ∧
    (∀ sg, id ≠ 0 → m.seg[id.toNat]? = some (.mapped sg) →
      ∃ m', m.segFree id = .ok m' ∧ m' = { seg := m.seg.set id.toNat .unmapped, pool := id :: m.pool } ∧
        m'.seg.length = m.seg.length ∧ m'.segFree id = .error .invalidSegment)

/-- R41, R38: the canonical form of a segment is a faithful picture of the list of words that the spec says
a segment is: writing, zero filling and installing an image are the list operations, and equal lists of
words are equal segments. The form is the model's (notes/assumptions/1, DEDUCED), and this justifies it. -/
def Obligations.SegmentsRefineWordLists : Prop :=
  (∀ (sg : Segment) (off : Nat) (v : Word), sg.wf = true → off < sg.len →
    (sg.setWord off v).words = sg.words.set off v ∧ (sg.setWord off v).wf = true) ∧
  (∀ n, (Segment.zeros n).words = List.replicate n 0 ∧ (Segment.zeros n).wf = true) ∧
  (∀ words, (Segment.ofWords words).words = words ∧ (Segment.ofWords words).wf = true) ∧
  (∀ a b : Segment, a.wf = true → b.wf = true → a.words = b.words → a = b)

/-- R52, R53: the identifier freed last is the next one allocated, its segment holds zeros, and the pool is
as it was before the free. Identifier 0xFFFFFFFF is as notes/assumptions/17 (DESIGN CHOICE) says. -/
def Obligations.FreedIdentifierIsReusedFirst : Prop :=
  ∀ (b c d : Reg) (s : State) (sg : Segment), s.x[c] ≠ 0 →
    s.mem.seg[s.x[c].toNat]? = some (.mapped sg) → s.x[d].toNat ≤ s.cfg.maxSegWords →
    s.mem.usedWords - sg.len + s.x[d].toNat ≤ s.cfg.memCapacityWords →
    ∃ t u, exec (.free c) s = .next t ∧ exec (.alloc b d) t = .next u ∧
      u.x = s.x.set b s.x[c] ∧ u.mem.pool = s.mem.pool ∧ u.mem.seg.length = s.mem.seg.length ∧
      ∀ off : Word, u.mem.segRead s.x[c] off =
        if off.toNat < s.x[d].toNat then .ok 0 else .error .outOfBounds

/-- R50, R46: the identifier allocate-segment returns is not 0, and named no live segment before. The premise
`s.Inv` is the invariant of StepKeepsTheInvariant, with the model's choices named there. -/
def Obligations.AllocReturnsAFreshNonZeroIdentifier : Prop :=
  ∀ (b c : Reg) (s t : State), s.Inv → s.run = .running → exec (.alloc b c) s = .next t →
    t.run = .running → t.x[b] ≠ 0 ∧ NotMapped s.mem t.x[b] ∧ ¬ NotMapped t.mem t.x[b]

/-- R51, R54: no step shrinks the table, and a segment that stays mapped keeps its length, but for segment 0
under load-program. The premise `s.Inv` is the invariant of StepKeepsTheInvariant, with the model's choices
named there. -/
def Obligations.TableAndLiveSegmentsKeepTheirSize : Prop :=
  ∀ s t : State, s.Inv → step s = .next t →
    s.mem.seg.length ≤ t.mem.seg.length ∧
    ∀ (n : Nat) (sg sg' : Segment), s.mem.seg[n]? = some (.mapped sg) →
      t.mem.seg[n]? = some (.mapped sg') →
      sg'.len = sg.len ∨ (n = 0 ∧ ∃ w b c, s.mem.segRead 0 s.pc = .ok w ∧ decode w = .ok (.loadp b c))

/-- R68, R211: a word stored at the next offset of segment 0 is what the very next step fetches. The premise
`s.mem.wf` is the model's canonical form (notes/assumptions/1, DEDUCED). -/
def Obligations.StoredWordIsFetchedNext : Prop :=
  ∀ (s : State) (w : Word) (a b c : Reg) (sg : Segment), s.mem.wf = true → s.run = .running →
    s.mem.segRead 0 s.pc = .ok w → decode w = .ok (.sstore a b c) → s.x[a] = 0 → s.x[b] = s.pc + 1 →
    s.mem.seg[0]? = some (.mapped sg) → s.x[b].toNat < sg.len →
    ∃ t, step s = .next t ∧ t.run = .running ∧ t.mem.segRead 0 t.pc = .ok s.x[c]

/-- R68, R161, R211: after load-program the very next step fetches word x[C] of the segment that was
copied. Identifier 0xFFFFFFFF is as notes/assumptions/17 (DESIGN CHOICE) says. -/
def Obligations.LoadedProgramIsFetchedNext : Prop :=
  ∀ (s : State) (w : Word) (b c : Reg) (sg old : Segment) (v : Word), s.run = .running →
    s.mem.segRead 0 s.pc = .ok w → decode w = .ok (.loadp b c) →
    s.mem.seg[s.x[b].toNat]? = some (.mapped sg) → s.mem.seg[0]? = some (.mapped old) →
    (s.x[b] = 0 ∨ s.mem.usedWords - old.len + sg.len ≤ s.cfg.memCapacityWords) →
    sg.words[s.x[c].toNat]? = some v →
    ∃ t, step s = .next t ∧ t.run = .running ∧ t.mem.segRead 0 t.pc = .ok v

/-- R63, R58: the table after a step is what the step's transactions make of the table before it, one after
another, a faulting one having no effect. The transaction form is the spec's decision D9; that the list of
transactions is computed beside the step is the model's choice (notes/assumptions/15, DESIGN CHOICE). -/
def Obligations.StepIsTheReplayOfItsTransactions : Prop :=
  ∀ s t : State, step s = .next t → t.mem = s.mem.replay s.cfg s.transactions

/-- R64 (D10): the arbiter grants every transaction of a step in its turn; a RUNNING step issues one FETCH
and then at most one execute transaction, and the loader is alone in LOADING. The list of transactions
beside the step is the model's choice (notes/assumptions/15, DESIGN CHOICE). -/
def Obligations.ArbiterOrdersTheRequesters : Prop :=
  ∀ s : State, grantedInOrder s.run none s.transactions = true ∧
    (s.run = .running → ∃ rest, s.transactions = .fetch s.pc :: rest ∧ rest.length ≤ 1 ∧
      ∀ q ∈ rest, q.issuer = .executeUnit) ∧
    (s.run = .loading → s.transactions.length ≤ 1 ∧ ∀ q ∈ s.transactions, q.issuer = .hostLoader) ∧
    (s.run = .halted ∨ s.run = .faulted → s.transactions = [])

/-! ### Input and output (46_io.md) -/

/-- R172, R173: for every step, in every run state. It emits at most one byte, after those before it, and
only a RUNNING step whose word is an output does; it takes at most the first byte of the input, and only a
RUNNING step whose word is an input does. No step touches the parameters: that they are a field of State
that no step writes is the model's choice (notes/assumptions/3, DESIGN CHOICE). -/
def Obligations.ByteChannelsAreUsedInProgramOrder : Prop :=
  ∀ s t : State, step s = .next t →
    (t.out = s.out ∨ ∃ w c b, s.run = .running ∧ s.mem.segRead 0 s.pc = .ok w ∧
      decode w = .ok (.output c) ∧ t.out = s.out ++ [b]) ∧
    (t.inp = s.inp ∨ ∃ w c b, s.run = .running ∧ s.mem.segRead 0 s.pc = .ok w ∧
      decode w = .ok (.input c) ∧ s.inp = b :: t.inp) ∧
    t.cfg = s.cfg

/-! ### Reset, loading and the end of a run (10_state.md, 60_exceptions.md, 70_reset_and_hazards.md) -/

/-- R39, R200 (D3, D4): the reset values, for every input sequence; reset leaves HALTED and FAULTED; and a
reset while RUNNING is not modelled. The values of ipc and of the offered image are the model's choice
(notes/assumptions/2 and 4, DESIGN CHOICE) and are not stated. That a host reset keeps the parameters and takes
the new input is notes/assumptions/10 (DEDUCED), and the refusal while RUNNING as an outcome is
notes/assumptions/7 (DESIGN CHOICE). -/
def Obligations.ResetGivesTheResetValues : Prop :=
  (∀ (cfg : Config) (inp : List Byte), let s := State.resetWith cfg inp
    (∀ r : Reg, s.x[r] = 0) ∧ s.pc = 0 ∧ s.run = .loading ∧ s.fkind = none ∧ s.fpc = 0 ∧
    s.mem.seg = [] ∧ s.mem.pool = [] ∧ s.inp = inp ∧ s.out = []) ∧
  (∀ (inp : List Byte) (s : State), s.run ≠ .running →
    hostReset inp s = .next (State.resetWith s.cfg inp)) ∧
  (∀ (inp : List Byte) (s : State), s.run = .running → hostReset inp s = .refused .resetWhileRunning)

/-- R201: the image is big-endian words, and a trailing partial word is MalformedProgram. The clause on a step
rests on the model's offered image, which a LOADING step answers (notes/assumptions/4, DESIGN CHOICE), and
on the spec's decisions D4 and D6 for the FAULTED state and its kind. -/
def Obligations.ImageIsBigEndianWords : Prop :=
  ∀ bytes : List Byte,
    (bytes.length % 4 ≠ 0 → imageWords bytes = .error .malformedProgram ∧
      ∀ s : State, s.run = .loading → s.image = some bytes →
        ∃ t, step s = .next t ∧ t.run = .faulted ∧ t.fkind = some .malformedProgram) ∧
    (bytes.length % 4 = 0 → ∃ words, imageWords bytes = .ok words ∧ words.length = bytes.length / 4 ∧
      ∀ k, k < bytes.length / 4 → ∃ w : Word, words[k]? = some w ∧
        w.toNat = (bytes.getD (4 * k) 0).toNat * 2 ^ 24 + (bytes.getD (4 * k + 1) 0).toNat * 2 ^ 16 +
          (bytes.getD (4 * k + 2) 0).toNat * 2 ^ 8 + (bytes.getD (4 * k + 3) 0).toNat)

/-- R203, R206 (D3, D4): an image within the limits (D20) becomes segment 0, the run starts, and every other
piece of state has its reset value. That a step answers an offered image, held in a field, is the model's
choice (notes/assumptions/4, DESIGN CHOICE). -/
def Obligations.AcceptedImageStartsTheRun : Prop :=
  ∀ (cfg : Config) (inp bytes : List Byte) (words : List Word), imageWords bytes = .ok words →
    words.length ≤ cfg.maxSegWords → words.length ≤ cfg.memCapacityWords →
    ∃ sg : Segment, sg.words = words ∧
      step { State.resetWith cfg inp with image := some bytes } =
        .next { State.resetWith cfg inp with run := .running, mem := { seg := [.mapped sg], pool := [] } }

/-- R190, R192, R202 (D6, D20): a load that faults records FAULT_PC = 0 and changes nothing else but that the
offered image is taken, which is the model's choice (notes/assumptions/4, DESIGN CHOICE); MalformedProgram
comes before ResourceExhausted. -/
def Obligations.LoadPhaseFaultsAreRaised : Prop :=
  ∀ (s : State) (bytes : List Byte), s.run = .loading → s.image = some bytes →
    (bytes.length % 4 ≠ 0 → ∃ t, step s = .next t ∧
      FaultRecorded .malformedProgram 0 { s with image := none } t) ∧
    (bytes.length % 4 = 0 →
      (s.cfg.maxSegWords < bytes.length / 4 ∨ s.cfg.memCapacityWords < bytes.length / 4) →
      ∃ t, step s = .next t ∧ FaultRecorded .resourceExhausted 0 { s with image := none } t)

/-- R204: LOAD_INITIAL is accepted only once, and only in LOADING; a refused one gives no state, so the
machine is not affected. That an accepted offer fills the field `image` and stays in LOADING, where a second
one is refused, is the model's choice (notes/assumptions/4, DESIGN CHOICE), and so is the refusal as an
outcome (notes/assumptions/7, DESIGN CHOICE). -/
def Obligations.LoadInitialIsAcceptedOnlyOnce : Prop :=
  ∀ (bytes : List Byte) (s : State),
    (s.run = .loading → s.image = none → ∃ t, hostOfferImage bytes s = .next t ∧
      t = { s with image := some bytes } ∧
      ∀ again, hostOfferImage again t = .refused .loadInitialRefused) ∧
    (s.run ≠ .loading → hostOfferImage bytes s = .refused .loadInitialRefused)

/-- R196: 0 for a run that ends HALTED, the non-zero parameter for one that ends FAULTED, none before. -/
def Obligations.ExitStatusTellsHowTheRunEnded : Prop :=
  ∀ s : State,
    (s.run = .halted → s.exitStatus = some 0) ∧
    (s.run = .faulted → s.exitStatus = some s.cfg.faultExitStatus ∧ s.cfg.faultExitStatus ≠ 0) ∧
    (s.ended = false → s.exitStatus = none)

/-- R32, R182 (the whole table is D6's): the status fields, with the code of every run state and kind. -/
def Obligations.StatusFieldsShowRunStateAndFault : Prop :=
  ∀ s : State, s.status.faultPc = s.fpc ∧
    (s.run = .loading → s.status.runState = 0) ∧ (s.run = .running → s.status.runState = 1) ∧
    (s.run = .halted → s.status.runState = 2) ∧ (s.run = .faulted → s.status.runState = 3) ∧
    (s.fkind = none → s.status.faultKind = 0) ∧
    (s.fkind = some .invalidSegment → s.status.faultKind = 1) ∧
    (s.fkind = some .outOfBounds → s.status.faultKind = 2) ∧
    (s.fkind = some .divisionByZero → s.status.faultKind = 3) ∧
    (s.fkind = some .invalidOutput → s.status.faultKind = 4) ∧
    (s.fkind = some .unknownOpcode → s.status.faultKind = 5) ∧
    (s.fkind = some .malformedProgram → s.status.faultKind = 6) ∧
    (s.fkind = some .resourceExhausted → s.status.faultKind = 7)

/-! ### The invariant -/

/-- The invariant holds after reset, with an image offered or not. Its clauses on the model's own choices are
those that StepKeepsTheInvariant names. -/
def Obligations.ResetStateIsInvariant : Prop :=
  ∀ (cfg : Config) (inp : List Byte) (image : Option (List Byte)),
    State.Inv { State.resetWith cfg inp with image := image }

/-- R50, R52, R55, R32, R39: every step keeps the invariant: the memory's canonical form, the limits, the
pool that holds exactly the unmapped identifiers, segment 0 mapped, and a fault report exactly in FAULTED.
These clauses are the model's choices and in none of those rules: the canonical form (notes/assumptions/1,
DEDUCED), the reset value of ipc in a LOADING state (2, DESIGN CHOICE), the offered image and that it is
answered before the run starts (4, DESIGN CHOICE), and a table of one slot when MAX_SEGMENTS is 0 (11,
DEDUCED). -/
def Obligations.StepKeepsTheInvariant : Prop :=
  ∀ s t : State, s.Inv → step s = .next t → t.Inv
end

