-- ==== Sys2Proof/Laws/Codec.lean ====
section
/-! SUPPORT. What inserting into a field of the codec's container does: the number of the new word, the
field itself, and every bit outside it (spec/30_encoding.md rules R82 to R87). -/

namespace Sys2Proof.Codec

theorem field_lt (word : Container) (w lsb : Nat) : field word w lsb < 2 ^ w :=
  Nat.mod_lt _ (by positivity)

/-- The number of the word with a field replaced: what stood above the field, the field, what stood below. -/
theorem replaceField_toNat (word : Container) {w lsb v : Nat} (hc : w + lsb ≤ 64) (hv : v < 2 ^ w) :
    (replaceField word w lsb v).toNat =
      word.toNat / 2 ^ (lsb + w) * 2 ^ (lsb + w) + v * 2 ^ lsb + word.toNat % 2 ^ lsb := by
  have hx := word.isLt
  rw [replaceField, BitVec.toNat_ofNat]
  have parts : word.toNat =
      word.toNat / 2 ^ (lsb + w) * 2 ^ (lsb + w) + field word w lsb * 2 ^ lsb + word.toNat % 2 ^ lsb := by
    have a := Nat.div_add_mod' word.toNat (2 ^ lsb)
    have b := Nat.div_add_mod' (word.toNat / 2 ^ lsb) (2 ^ w)
    rw [Nat.div_div_eq_div_mul, ← Nat.pow_add] at b
    rw [field]
    calc word.toNat = (word.toNat / 2 ^ lsb) * 2 ^ lsb + word.toNat % 2 ^ lsb := a.symm
      _ = (word.toNat / 2 ^ (lsb + w) * 2 ^ w + word.toNat / 2 ^ lsb % 2 ^ w) * 2 ^ lsb +
            word.toNat % 2 ^ lsb := by rw [b]
      _ = _ := by rw [Nat.add_mul, Nat.mul_assoc, ← Nat.pow_add, Nat.add_comm w lsb]
  have hlt : word.toNat / 2 ^ (lsb + w) * 2 ^ (lsb + w) + v * 2 ^ lsb + word.toNat % 2 ^ lsb < 2 ^ 64 := by
    have h1 : word.toNat % 2 ^ lsb < 2 ^ lsb := Nat.mod_lt _ (by positivity)
    have h2 : (v + 1) * 2 ^ lsb ≤ 2 ^ (lsb + w) := by
      rw [Nat.add_comm lsb w, Nat.pow_add]
      exact Nat.mul_le_mul_right _ hv
    have h3 : word.toNat / 2 ^ (lsb + w) < 2 ^ (64 - (lsb + w)) := by
      rw [Nat.div_lt_iff_lt_mul (by positivity), ← Nat.pow_add]
      convert hx using 2
      omega
    have h4 : (word.toNat / 2 ^ (lsb + w) + 1) * 2 ^ (lsb + w) ≤ 2 ^ 64 := by
      calc _ ≤ 2 ^ (64 - (lsb + w)) * 2 ^ (lsb + w) := Nat.mul_le_mul_right _ h3
        _ = 2 ^ 64 := by rw [← Nat.pow_add]; congr 1; omega
    rw [Nat.add_mul] at h2 h4
    omega
  rw [Nat.mod_eq_of_lt] <;> omega

/-- The field reads as what was inserted. -/
theorem field_replaceField (word : Container) {w lsb v : Nat} (hc : w + lsb ≤ 64) (hv : v < 2 ^ w) :
    field (replaceField word w lsb v) w lsb = v := by
  have h1 : word.toNat % 2 ^ lsb < 2 ^ lsb := Nat.mod_lt _ (by positivity)
  have parts : word.toNat / 2 ^ (lsb + w) * 2 ^ (lsb + w) + v * 2 ^ lsb + word.toNat % 2 ^ lsb =
      2 ^ lsb * (word.toNat / 2 ^ (lsb + w) * 2 ^ w + v) + word.toNat % 2 ^ lsb := by
    rw [Nat.pow_add]
    ring
  rw [field, replaceField_toNat word hc hv, parts, Nat.mul_add_div (by positivity), Nat.div_eq_of_lt h1,
    Nat.add_zero, Nat.mul_add_mod_self_right, Nat.mod_eq_of_lt hv]

/-- Bits outside the field are unchanged (R85). -/
theorem getLsbD_replaceField (word : Container) {w lsb v : Nat} (hc : w + lsb ≤ 64) (hv : v < 2 ^ w)
    (k : Nat) (hk : k < lsb ∨ lsb + w ≤ k) :
    (replaceField word w lsb v).getLsbD k = word.getLsbD k := by
  rw [BitVec.getLsbD, BitVec.getLsbD, replaceField_toNat word hc hv]
  have h1 : word.toNat % 2 ^ lsb < 2 ^ lsb := Nat.mod_lt _ (by positivity)
  have hlow : v * 2 ^ lsb + word.toNat % 2 ^ lsb < 2 ^ (lsb + w) := by
    have h2 : (v + 1) * 2 ^ lsb ≤ 2 ^ (lsb + w) := by
      rw [Nat.add_comm lsb w, Nat.pow_add]
      exact Nat.mul_le_mul_right _ hv
    rw [Nat.add_mul] at h2
    omega
  rcases hk with hk | hk
  · have parts : word.toNat / 2 ^ (lsb + w) * 2 ^ (lsb + w) + v * 2 ^ lsb + word.toNat % 2 ^ lsb =
        2 ^ lsb * (word.toNat / 2 ^ (lsb + w) * 2 ^ w + v) + word.toNat % 2 ^ lsb := by
      rw [Nat.pow_add]
      ring
    rw [parts, Nat.testBit_two_pow_mul_add _ h1, if_pos hk, Nat.testBit_mod_two_pow]
    simp [hk]
  · rw [Nat.add_assoc, Nat.mul_comm, Nat.testBit_two_pow_mul_add _ hlow, if_neg (by omega),
      Nat.testBit_div_two_pow]
    congr 1
    omega

/-- An insertion of a value that fits. -/
theorem newUnsigned_of_lt {word : Container} {w lsb v : Nat} (hc : inContract w lsb = true) (h0 : w ≠ 0)
    (hv : v < 2 ^ w) : newUnsigned word w lsb (v : Int) = .ok (replaceField word w lsb v) := by
  have : fitsUnsigned (v : Int) w = true := by
    simp only [fitsUnsigned, Bool.and_eq_true, decide_eq_true_eq]
    exact ⟨by omega, by exact_mod_cast hv⟩
  simp only [newUnsigned, hc, if_true, if_neg h0, this, Int.toNat_natCast]

end Sys2Proof.Codec
end

