-- ==== Sys2Proof/Laws/Decode.lean ====
section
/-! SUPPORT. The decoder's fields as arithmetic on the word and as the bit slices of R72 and R74, and the
fields of an encoded word. -/

namespace Sys2Proof

/-- A field of an instruction word is quotient and remainder of the word's number (R82). -/
theorem wordField_eq (w : Word) (width lsb : Nat) :
    Codec.field (Codec.container w) width lsb = w.toNat / 2 ^ lsb % 2 ^ width := by
  have h : w.toNat < 2 ^ 64 := Nat.lt_trans w.isLt (by decide)
  rw [Codec.field, Codec.container, BitVec.toNat_setWidth, Nat.mod_eq_of_lt h]

theorem opcodeField_eq (w : Word) : opcodeField w = w.toNat / 2 ^ 28 % 2 ^ 4 := wordField_eq w 4 28

theorem registerField_val (w : Word) (lsb : Nat) :
    (registerField w lsb).val = w.toNat / 2 ^ lsb % 2 ^ 3 := wordField_eq w 3 lsb

theorem immediateField_eq (w : Word) : immediateField w = w.toNat / 2 ^ 0 % 2 ^ 25 :=
  wordField_eq w 25 0

/-- The slice w[hi:lo] as a number (R10). -/
theorem wordBits_eq (w : Word) (hi lo : Nat) :
    wordBits w hi lo = w.toNat / 2 ^ lo % 2 ^ (hi - lo + 1) := by
  simp [wordBits, BitVec.extractLsb, Nat.shiftRight_eq_div_pow]

theorem registerBits_val (w : Word) (lo : Nat) :
    (registerBits w lo).val = w.toNat / 2 ^ lo % 2 ^ 3 := by
  have : (registerBits w lo).val = (w.extractLsb' lo 3).toNat := rfl
  simp [this, Nat.shiftRight_eq_div_pow]

/-- The decoder reads the slices the spec names. -/
theorem registerField_eq_registerBits (w : Word) (lsb : Nat) : registerField w lsb = registerBits w lsb :=
  Fin.ext (by rw [registerField_val, registerBits_val])

theorem opcodeField_eq_wordBits (w : Word) : opcodeField w = wordBits w 31 28 := by
  rw [opcodeField_eq, wordBits_eq]

theorem immediateField_eq_wordBits (w : Word) : immediateField w = wordBits w 24 0 := by
  rw [immediateField_eq, wordBits_eq]

/-! ### Encoded words -/

theorem enc3_toNat {op : Nat} (h : op < 16) (a b c : Reg) :
    (enc3 op a b c).toNat = op * 2 ^ 28 + a.val * 2 ^ 6 + b.val * 2 ^ 3 + c.val := by
  have ha := a.isLt
  have hb := b.isLt
  have hc := c.isLt
  rw [enc3, BitVec.toNat_ofNat, Nat.mod_eq_of_lt]
  omega

theorem encLI_toNat (a : Reg) {imm : Nat} (h : imm < 2 ^ 25) :
    (encLI a imm).toNat = 13 * 2 ^ 28 + a.val * 2 ^ 25 + imm := by
  have ha := a.isLt
  rw [encLI, BitVec.toNat_ofNat, Nat.mod_eq_of_lt]
  omega

/-- The four fields of a standard-layout word (R81). -/
theorem enc3_fields {op : Nat} (h : op < 16) (a b c : Reg) :
    opcodeField (enc3 op a b c) = op ∧ fieldA (enc3 op a b c) = a ∧ fieldB (enc3 op a b c) = b ∧
      fieldC (enc3 op a b c) = c := by
  have ha := a.isLt
  have hb := b.isLt
  have hc := c.isLt
  refine ⟨?_, Fin.ext ?_, Fin.ext ?_, Fin.ext ?_⟩
  · rw [opcodeField_eq, enc3_toNat h]; omega
  · rw [fieldA, registerField_val, enc3_toNat h]; omega
  · rw [fieldB, registerField_val, enc3_toNat h]; omega
  · rw [fieldC, registerField_val, enc3_toNat h]; omega

/-- The three fields of a load-immediate word (R81). -/
theorem encLI_fields (a : Reg) {imm : Nat} (h : imm < 2 ^ 25) :
    opcodeField (encLI a imm) = 13 ∧ immediateFieldA (encLI a imm) = a ∧
      immediateField (encLI a imm) = imm := by
  have ha := a.isLt
  refine ⟨?_, Fin.ext ?_, ?_⟩
  · rw [opcodeField_eq, encLI_toNat a h]; omega
  · rw [immediateFieldA, registerField_val, encLI_toNat a h]; omega
  · rw [immediateField_eq, encLI_toNat a h]; omega

theorem loadi_wellFormed {a : Reg} {imm : Nat} (h : (Instr.loadi a imm).wellFormed = true) :
    imm < 2 ^ 25 := by
  simpa [Instr.wellFormed, immediateFits] using h

theorem immediateField_lt (w : Word) : immediateField w < 2 ^ 25 := by
  rw [immediateField_eq]
  exact Nat.mod_lt _ (by decide)

theorem opcodeField_lt (w : Word) : opcodeField w < 16 := by
  rw [opcodeField_eq]
  exact Nat.mod_lt _ (by decide)

/-- The two ways a word decodes (R80). -/
theorem decode_cases {w : Word} {i : Instr} (h : decode w = .ok i) :
    (opcodeField w < 13 ∧ standardInstr (opcodeField w) (fieldA w) (fieldB w) (fieldC w) = some i) ∨
    (opcodeField w = 13 ∧ i = .loadi (immediateFieldA w) (immediateField w)) := by
  unfold decode at h
  unfold standardInstr
  split at h <;> simp_all

/-- The opcode of the instruction of a standard-layout word. -/
theorem standardInstr_opcode {op : Nat} {a b c : Reg} {i : Instr}
    (h : standardInstr op a b c = some i) : i.opcode = op ∧ op < 13 := by
  unfold standardInstr at h
  split at h <;> (try cases h) <;> (constructor <;> first | rfl | decide)

/-! ### Masks that keep the opcode and the low fields (R73, R78) -/

/-- The top four bits of a word alone. -/
theorem and_opcodeBits (x : Nat) (h : x < 2 ^ 32) : x &&& 0xF0000000 = x / 2 ^ 28 * 2 ^ 28 := by
  apply Nat.eq_of_testBit_eq
  intro i
  have e : (0xF0000000 : Nat) = 2 ^ 28 * 15 := by decide
  rw [Nat.testBit_and, e, Nat.mul_comm (x / 2 ^ 28), Nat.testBit_two_pow_mul,
    Nat.testBit_two_pow_mul, Nat.testBit_div_two_pow]
  by_cases h28 : 28 ≤ i
  · simp only [h28, decide_true, Bool.true_and]
    have : i - 28 + 28 = i := by omega
    rw [this]
    by_cases h32 : i < 32
    · have : Nat.testBit 15 (i - 28) = true := by
        have : i - 28 < 4 := by omega
        interval_cases (i - 28) <;> decide
      rw [this]; simp
    · have : x.testBit i = false :=
        Nat.testBit_lt_two_pow (lt_of_lt_of_le h (Nat.pow_le_pow_right (by decide) (by omega)))
      rw [this]; simp
  · simp [h28]

/-- A word under a mask of its opcode and its low `n` bits. -/
theorem and_usedBits_toNat (w : Word) (n : Nat) (m : Word)
    (hm : m.toNat = 0xF0000000 ||| (2 ^ n - 1)) (hn : n ≤ 28) :
    (w &&& m).toNat = w.toNat / 2 ^ 28 * 2 ^ 28 + w.toNat % 2 ^ n := by
  rw [BitVec.toNat_and, hm, Nat.and_or_distrib_left, and_opcodeBits _ w.isLt,
    Nat.and_two_pow_sub_one_eq_mod, Nat.mul_comm]
  rw [Nat.two_pow_add_eq_or_of_lt]
  exact lt_of_lt_of_le (Nat.mod_lt _ (by positivity)) (Nat.pow_le_pow_right (by decide) hn)

end Sys2Proof
end

