-- ==== Sys2Proof/Laws/Memory.lean ====
section
/-! SUPPORT. The laws of the memory's cells, segments and slots: read after write, the canonical form, and
the dense list of words. -/

namespace Sys2Proof.Machine

/-! ### Canonical cells -/

/-- A canonical list whose offsets start at `lo` lists nothing below `lo`. -/
theorem cellRead_below {hi lo off : Nat} {cs : List (Nat × Word)}
    (h : cellsCanonical hi lo cs = true) (hlt : off < lo) : cellRead cs off = 0 := by
  induction cs generalizing lo with
  | nil => rfl
  | cons c rest ih =>
    obtain ⟨k, v⟩ := c
    simp only [cellsCanonical, Bool.and_eq_true, decide_eq_true_eq] at h
    obtain ⟨⟨⟨hk, _⟩, _⟩, hrest⟩ := h
    rw [cellRead, if_neg (by omega), ih hrest (by omega)]

/-- A canonical list stays canonical from any lower offset. -/
theorem cellsCanonical_lower {hi lo lo' : Nat} {cs : List (Nat × Word)}
    (h : cellsCanonical hi lo cs = true) (hle : lo' ≤ lo) : cellsCanonical hi lo' cs = true := by
  cases cs with
  | nil => rfl
  | cons c rest =>
    obtain ⟨k, v⟩ := c
    simp only [cellsCanonical, Bool.and_eq_true, decide_eq_true_eq] at h ⊢
    exact ⟨⟨⟨by omega, h.1.1.2⟩, h.1.2⟩, h.2⟩

/-- A canonical list lists nothing at or beyond its upper end. -/
theorem cellRead_beyond {hi lo off : Nat} {cs : List (Nat × Word)}
    (h : cellsCanonical hi lo cs = true) (hge : hi ≤ off) : cellRead cs off = 0 := by
  induction cs generalizing lo with
  | nil => rfl
  | cons c rest ih =>
    obtain ⟨k, v⟩ := c
    simp only [cellsCanonical, Bool.and_eq_true, decide_eq_true_eq] at h
    rw [cellRead, if_neg (by omega), ih h.2]

/-- The word read at an offset after a write of a canonical list. -/
theorem cellRead_cellWrite {hi lo : Nat} {cs : List (Nat × Word)} (off off' : Nat) (v : Word)
    (h : cellsCanonical hi lo cs = true) :
    cellRead (cellWrite cs off v) off' = if off' = off then v else cellRead cs off' := by
  induction cs generalizing lo with
  | nil =>
    rw [cellWrite]
    split
    · rename_i hv
      simp [cellRead, hv]
    · by_cases he : off' = off
      · simp [cellRead, he]
      · simp [cellRead, he, Ne.symm he]
  | cons c rest ih =>
    obtain ⟨k, u⟩ := c
    simp only [cellsCanonical, Bool.and_eq_true, decide_eq_true_eq] at h
    obtain ⟨⟨⟨hk, _⟩, hu⟩, hrest⟩ := h
    rw [cellWrite]
    split
    · rename_i hlt
      simp only [cellRead, ih hrest]
      split <;> split <;> first | rfl | omega
    · split
      · rename_i _ heq
        subst heq
        have hlow : cellRead rest k = 0 := cellRead_below hrest (by omega)
        split
        · rename_i hv
          subst hv
          by_cases he : off' = k
          · subst he; simp [hlow]
          · simp [cellRead, he, Ne.symm he]
        · by_cases he : off' = k
          · subst he; simp [cellRead]
          · simp [cellRead, he, Ne.symm he]
      · rename_i hge hne
        have hcons : cellRead ((k, u) :: rest) off = 0 := by
          rw [cellRead, if_neg (by omega), cellRead_below hrest (by omega)]
        split
        · rename_i hv
          subst hv
          by_cases he : off' = off
          · subst he; simp [hcons]
          · simp [he]
        · by_cases he : off' = off
          · subst he; simp [cellRead]
          · rw [if_neg he, cellRead, if_neg (Ne.symm he)]

/-- A write below the upper end keeps the canonical form. -/
theorem cellsCanonical_cellWrite {hi lo off : Nat} {cs : List (Nat × Word)} (v : Word)
    (h : cellsCanonical hi lo cs = true) (hlo : lo ≤ off) (hhi : off < hi) :
    cellsCanonical hi lo (cellWrite cs off v) = true := by
  induction cs generalizing lo with
  | nil =>
    rw [cellWrite]
    split
    · rfl
    · rename_i hv
      simp only [cellsCanonical, Bool.and_eq_true, decide_eq_true_eq]
      exact ⟨⟨⟨hlo, hhi⟩, hv⟩, trivial⟩
  | cons c rest ih =>
    obtain ⟨k, u⟩ := c
    have hall := h
    simp only [cellsCanonical, Bool.and_eq_true, decide_eq_true_eq] at h
    obtain ⟨⟨⟨hk, hkhi⟩, hu⟩, hrest⟩ := h
    rw [cellWrite]
    split
    · simp only [cellsCanonical, Bool.and_eq_true, decide_eq_true_eq]
      exact ⟨⟨⟨hk, hkhi⟩, hu⟩, ih hrest (by omega)⟩
    · split
      · rename_i _ heq
        subst heq
        split
        · exact cellsCanonical_lower hrest (by omega)
        · rename_i hv
          simp only [cellsCanonical, Bool.and_eq_true, decide_eq_true_eq]
          exact ⟨⟨⟨hk, hkhi⟩, hv⟩, hrest⟩
      · split
        · exact hall
        · rename_i hge hne hv
          simp only [cellsCanonical, Bool.and_eq_true, decide_eq_true_eq]
          exact ⟨⟨⟨hlo, hhi⟩, hv⟩, ⟨⟨by omega, hkhi⟩, hu⟩, hrest⟩

/-- Canonical lists that read the same everywhere are equal. -/
theorem cells_ext {hi lo lo' : Nat} {cs ds : List (Nat × Word)}
    (hc : cellsCanonical hi lo cs = true) (hd : cellsCanonical hi lo' ds = true)
    (h : ∀ off, cellRead cs off = cellRead ds off) : cs = ds := by
  induction cs generalizing lo lo' ds with
  | nil =>
    cases ds with
    | nil => rfl
    | cons d rest =>
      obtain ⟨k, v⟩ := d
      simp only [cellsCanonical, Bool.and_eq_true, decide_eq_true_eq] at hd
      have := h k
      simp [cellRead] at this
      exact absurd this.symm hd.1.2
  | cons c rest ih =>
    obtain ⟨k, v⟩ := c
    simp only [cellsCanonical, Bool.and_eq_true, decide_eq_true_eq] at hc
    obtain ⟨⟨_, hv⟩, hrest⟩ := hc
    cases ds with
    | nil =>
      have := h k
      simp [cellRead] at this
      exact absurd this hv
    | cons d rest' =>
      obtain ⟨k', v'⟩ := d
      simp only [cellsCanonical, Bool.and_eq_true, decide_eq_true_eq] at hd
      obtain ⟨⟨_, hv'⟩, hrest'⟩ := hd
      have hk : k = k' := by
        by_contra hne
        rcases Nat.lt_or_gt_of_ne hne with hlt | hgt
        · have := h k
          rw [cellRead, if_pos rfl, cellRead, if_neg (by omega),
            cellRead_below hrest' (by omega)] at this
          exact hv this
        · have := h k'
          rw [cellRead, if_neg (by omega), cellRead_below hrest (by omega), cellRead,
            if_pos rfl] at this
          exact hv' this.symm
      subst hk
      have hvv : v = v' := by simpa [cellRead] using h k
      subst hvv
      congr 1
      refine ih hrest hrest' fun off => ?_
      by_cases he : k = off
      · subst he
        rw [cellRead_below hrest (by omega), cellRead_below hrest' (by omega)]
      · simpa [cellRead, he] using h off

/-- The cells of a sequence of words, read back. -/
theorem cellRead_cellsOfWords (words : List Word) (base off : Nat) :
    cellRead (cellsOfWords words base) off =
      if base ≤ off then words.getD (off - base) 0 else 0 := by
  induction words generalizing base with
  | nil => simp [cellsOfWords, cellRead]
  | cons w rest ih =>
    rw [cellsOfWords]
    by_cases he : off = base
    · subst he
      split <;> simp_all [cellRead]
    · have hsub : base ≤ off → off - base = (off - (base + 1)) + 1 := by omega
      split
      · rw [ih]
        by_cases hle : base ≤ off
        · rw [if_pos hle, if_pos (by omega), hsub hle]; rfl
        · rw [if_neg hle, if_neg (by omega)]
      · rw [cellRead, if_neg (Ne.symm he), ih]
        by_cases hle : base ≤ off
        · rw [if_pos hle, if_pos (by omega), hsub hle]; rfl
        · rw [if_neg hle, if_neg (by omega)]

/-- The cells of a sequence of words are canonical. -/
theorem cellsCanonical_cellsOfWords (words : List Word) (base hi : Nat)
    (h : base + words.length ≤ hi) : cellsCanonical hi base (cellsOfWords words base) = true := by
  induction words generalizing base with
  | nil => rfl
  | cons w rest ih =>
    simp only [List.length_cons] at h
    rw [cellsOfWords]
    split
    · exact cellsCanonical_lower (ih (base + 1) (by omega)) (by omega)
    · rename_i hw
      simp only [cellsCanonical, Bool.and_eq_true, decide_eq_true_eq]
      exact ⟨⟨⟨Nat.le_refl _, by omega⟩, hw⟩, ih (base + 1) (by omega)⟩

/-! ### Segments -/

@[simp] theorem setWord_len (sg : Segment) (off : Nat) (v : Word) : (sg.setWord off v).len = sg.len :=
  rfl

@[simp] theorem zeros_len (n : Nat) : (Segment.zeros n).len = n := rfl

@[simp] theorem ofWords_len (words : List Word) : (Segment.ofWords words).len = words.length := rfl

@[simp] theorem zeros_wordAt (n off : Nat) : (Segment.zeros n).wordAt off = 0 := rfl

@[simp] theorem zeros_wf (n : Nat) : (Segment.zeros n).wf = true := rfl

/-- R45: the word read at an offset of a segment after a write. -/
theorem wordAt_setWord {sg : Segment} (h : sg.wf = true) (off off' : Nat) (v : Word) :
    (sg.setWord off v).wordAt off' = if off' = off then v else sg.wordAt off' :=
  cellRead_cellWrite off off' v h

theorem setWord_wf {sg : Segment} (h : sg.wf = true) {off : Nat} (v : Word) (hlt : off < sg.len) :
    (sg.setWord off v).wf = true :=
  cellsCanonical_cellWrite v h (Nat.zero_le _) hlt

theorem ofWords_wordAt (words : List Word) (off : Nat) :
    (Segment.ofWords words).wordAt off = words.getD off 0 := by
  simp [Segment.wordAt, Segment.ofWords, cellRead_cellsOfWords]

theorem ofWords_wf (words : List Word) : (Segment.ofWords words).wf = true :=
  cellsCanonical_cellsOfWords words 0 words.length (by omega)

@[simp] theorem words_length (sg : Segment) : sg.words.length = sg.len := by
  simp [Segment.words]

/-- A word of the dense list is the word read at its offset. -/
theorem words_getElem? (sg : Segment) (off : Nat) :
    sg.words[off]? = if off < sg.len then some (sg.wordAt off) else none := by
  by_cases h : off < sg.len <;> simp [Segment.words, h]

/-- Canonical segments of one length that read the same are equal. -/
theorem segment_ext {a b : Segment} (ha : a.wf = true) (hb : b.wf = true) (hlen : a.len = b.len)
    (h : ∀ off, off < a.len → a.wordAt off = b.wordAt off) : a = b := by
  obtain ⟨n, cs⟩ := a
  obtain ⟨n', ds⟩ := b
  simp only at hlen
  subst hlen
  congr 1
  refine cells_ext ha hb fun off => ?_
  by_cases hlt : off < n
  · exact h off hlt
  · rw [cellRead_beyond (hi := n) ha (by omega), cellRead_beyond (hi := n) hb (by omega)]

/-! ### Slots and the table -/

@[simp] theorem setSlot_pool (m : Memory) (id : Word) (slot : Slot) :
    (m.setSlot id slot).pool = m.pool := rfl

@[simp] theorem setSlot_seg (m : Memory) (id : Word) (slot : Slot) :
    (m.setSlot id slot).seg = m.seg.set id.toNat slot := rfl

/-- The two sides of `lookup` (R42, R43). -/
theorem lookup_eq_some {m : Memory} {id : Word} {sg : Segment} :
    m.lookup id = some sg ↔ m.seg[id.toNat]? = some (.mapped sg) := by
  unfold Memory.lookup
  split <;> simp_all

theorem lookup_eq_none {m : Memory} {id : Word} :
    m.lookup id = none ↔ ∀ sg, m.seg[id.toNat]? ≠ some (.mapped sg) := by
  unfold Memory.lookup
  split <;> simp_all

theorem lookup_lt {m : Memory} {id : Word} {sg : Segment} (h : m.lookup id = some sg) :
    id.toNat < m.seg.length := by
  have := lookup_eq_some.mp h
  exact (List.getElem?_eq_some_iff.mp this).1

/-- `lookup` after one slot of the table is replaced. -/
theorem lookup_set (m : Memory) (pool : List Word) (id id' : Word) (slot : Slot)
    (h : id.toNat < m.seg.length) :
    Memory.lookup { seg := m.seg.set id.toNat slot, pool := pool } id' =
      if id' = id then (match slot with | .mapped sg => some sg | .unmapped => none)
      else m.lookup id' := by
  by_cases he : id' = id
  · subst he
    cases slot <;> simp [Memory.lookup, h]
  · have hne : id.toNat ≠ id'.toNat := fun e => he (BitVec.eq_of_toNat_eq e.symm)
    simp [Memory.lookup, he, List.getElem?_set_ne hne]

/-- The canonical form, slot by slot. -/
theorem wf_iff {m : Memory} : m.wf = true ↔ ∀ sg, Slot.mapped sg ∈ m.seg → sg.wf = true := by
  simp only [Memory.wf, List.all_eq_true]
  constructor
  · intro h sg hm
    exact h _ hm
  · intro h slot hs
    cases slot with
    | mapped sg => exact h sg hs
    | unmapped => rfl

theorem wf_of_lookup {m : Memory} {id : Word} {sg : Segment} (h : m.wf = true)
    (hl : m.lookup id = some sg) : sg.wf = true :=
  wf_iff.mp h sg (List.mem_of_getElem? (lookup_eq_some.mp hl))

/-- Replacing a slot by a canonical one keeps the canonical form. -/
theorem wf_set {m : Memory} (pool : List Word) {n : Nat} {slot : Slot} (h : m.wf = true)
    (hs : slot.wf = true) : Memory.wf { seg := m.seg.set n slot, pool := pool } = true := by
  simp only [Memory.wf, List.all_eq_true] at h ⊢
  intro s hm
  rcases List.mem_or_eq_of_mem_set hm with hm | rfl
  · exact h s hm
  · exact hs

/-- The words in use once a slot is replaced (R46). -/
theorem usedWords_set {m : Memory} (pool : List Word) {n : Nat} {old : Slot} (slot : Slot)
    (h : m.seg[n]? = some old) :
    Memory.usedWords { seg := m.seg.set n slot, pool := pool } + old.wordCount =
      m.usedWords + slot.wordCount := by
  obtain ⟨seg, p⟩ := m
  simp only [Memory.usedWords] at h ⊢
  induction seg generalizing n with
  | nil => simp at h
  | cons s rest ih =>
    cases n with
    | zero =>
      simp only [List.getElem?_cons_zero, Option.some.injEq] at h
      subst h
      simp [List.sum_cons]
      omega
    | succ n =>
      simp only [List.getElem?_cons_succ] at h
      have := ih h
      simp only [List.set_cons_succ, List.map_cons, List.sum_cons]
      omega

/-- A live segment's length is part of the words in use. -/
theorem len_le_usedWords {m : Memory} {n : Nat} {sg : Segment} (h : m.seg[n]? = some (.mapped sg)) :
    sg.len ≤ m.usedWords := by
  have := usedWords_set m.pool Slot.unmapped h
  simp only [Slot.wordCount] at this
  omega

end Sys2Proof.Machine
end

