-- ==== Sys2Proof/Laws/State.lean ====
section
/-! SUPPORT. One lemma per field per update of the state, and the register file's read-after-write laws. -/

namespace Sys2Proof.Machine

/-! ### setReg -/

@[simp] theorem setReg_x (s : State) (r : Reg) (v : Word) : (s.setReg r v).x = s.x.set r.val v r.isLt := rfl
@[simp] theorem setReg_pc (s : State) (r : Reg) (v : Word) : (s.setReg r v).pc = s.pc := rfl
@[simp] theorem setReg_ipc (s : State) (r : Reg) (v : Word) : (s.setReg r v).ipc = s.ipc := rfl
@[simp] theorem setReg_run (s : State) (r : Reg) (v : Word) : (s.setReg r v).run = s.run := rfl
@[simp] theorem setReg_fkind (s : State) (r : Reg) (v : Word) : (s.setReg r v).fkind = s.fkind := rfl
@[simp] theorem setReg_fpc (s : State) (r : Reg) (v : Word) : (s.setReg r v).fpc = s.fpc := rfl
@[simp] theorem setReg_mem (s : State) (r : Reg) (v : Word) : (s.setReg r v).mem = s.mem := rfl
@[simp] theorem setReg_inp (s : State) (r : Reg) (v : Word) : (s.setReg r v).inp = s.inp := rfl
@[simp] theorem setReg_out (s : State) (r : Reg) (v : Word) : (s.setReg r v).out = s.out := rfl
@[simp] theorem setReg_image (s : State) (r : Reg) (v : Word) : (s.setReg r v).image = s.image := rfl
@[simp] theorem setReg_cfg (s : State) (r : Reg) (v : Word) : (s.setReg r v).cfg = s.cfg := rfl

/-! ### setMem -/

@[simp] theorem setMem_x (s : State) (m : Memory) : (s.setMem m).x = s.x := rfl
@[simp] theorem setMem_pc (s : State) (m : Memory) : (s.setMem m).pc = s.pc := rfl
@[simp] theorem setMem_ipc (s : State) (m : Memory) : (s.setMem m).ipc = s.ipc := rfl
@[simp] theorem setMem_run (s : State) (m : Memory) : (s.setMem m).run = s.run := rfl
@[simp] theorem setMem_fkind (s : State) (m : Memory) : (s.setMem m).fkind = s.fkind := rfl
@[simp] theorem setMem_fpc (s : State) (m : Memory) : (s.setMem m).fpc = s.fpc := rfl
@[simp] theorem setMem_mem (s : State) (m : Memory) : (s.setMem m).mem = m := rfl
@[simp] theorem setMem_inp (s : State) (m : Memory) : (s.setMem m).inp = s.inp := rfl
@[simp] theorem setMem_out (s : State) (m : Memory) : (s.setMem m).out = s.out := rfl
@[simp] theorem setMem_image (s : State) (m : Memory) : (s.setMem m).image = s.image := rfl
@[simp] theorem setMem_cfg (s : State) (m : Memory) : (s.setMem m).cfg = s.cfg := rfl

/-! ### redirect -/

@[simp] theorem redirect_x (s : State) (target : Word) : (s.redirect target).x = s.x := rfl
@[simp] theorem redirect_pc (s : State) (target : Word) : (s.redirect target).pc = target := rfl
@[simp] theorem redirect_ipc (s : State) (target : Word) : (s.redirect target).ipc = s.ipc := rfl
@[simp] theorem redirect_run (s : State) (target : Word) : (s.redirect target).run = s.run := rfl
@[simp] theorem redirect_fkind (s : State) (target : Word) : (s.redirect target).fkind = s.fkind := rfl
@[simp] theorem redirect_fpc (s : State) (target : Word) : (s.redirect target).fpc = s.fpc := rfl
@[simp] theorem redirect_mem (s : State) (target : Word) : (s.redirect target).mem = s.mem := rfl
@[simp] theorem redirect_inp (s : State) (target : Word) : (s.redirect target).inp = s.inp := rfl
@[simp] theorem redirect_out (s : State) (target : Word) : (s.redirect target).out = s.out := rfl
@[simp] theorem redirect_image (s : State) (target : Word) : (s.redirect target).image = s.image := rfl
@[simp] theorem redirect_cfg (s : State) (target : Word) : (s.redirect target).cfg = s.cfg := rfl

/-! ### stop -/

@[simp] theorem stop_x (s : State) : (s.stop).x = s.x := rfl
@[simp] theorem stop_pc (s : State) : (s.stop).pc = s.pc := rfl
@[simp] theorem stop_ipc (s : State) : (s.stop).ipc = s.ipc := rfl
@[simp] theorem stop_run (s : State) : (s.stop).run = .halted := rfl
@[simp] theorem stop_fkind (s : State) : (s.stop).fkind = s.fkind := rfl
@[simp] theorem stop_fpc (s : State) : (s.stop).fpc = s.fpc := rfl
@[simp] theorem stop_mem (s : State) : (s.stop).mem = s.mem := rfl
@[simp] theorem stop_inp (s : State) : (s.stop).inp = s.inp := rfl
@[simp] theorem stop_out (s : State) : (s.stop).out = s.out := rfl
@[simp] theorem stop_image (s : State) : (s.stop).image = s.image := rfl
@[simp] theorem stop_cfg (s : State) : (s.stop).cfg = s.cfg := rfl

/-! ### outByte -/

@[simp] theorem outByte_x (s : State) (b : Byte) : (s.outByte b).x = s.x := rfl
@[simp] theorem outByte_pc (s : State) (b : Byte) : (s.outByte b).pc = s.pc := rfl
@[simp] theorem outByte_ipc (s : State) (b : Byte) : (s.outByte b).ipc = s.ipc := rfl
@[simp] theorem outByte_run (s : State) (b : Byte) : (s.outByte b).run = s.run := rfl
@[simp] theorem outByte_fkind (s : State) (b : Byte) : (s.outByte b).fkind = s.fkind := rfl
@[simp] theorem outByte_fpc (s : State) (b : Byte) : (s.outByte b).fpc = s.fpc := rfl
@[simp] theorem outByte_mem (s : State) (b : Byte) : (s.outByte b).mem = s.mem := rfl
@[simp] theorem outByte_inp (s : State) (b : Byte) : (s.outByte b).inp = s.inp := rfl
@[simp] theorem outByte_out (s : State) (b : Byte) : (s.outByte b).out = s.out ++ [b] := rfl
@[simp] theorem outByte_image (s : State) (b : Byte) : (s.outByte b).image = s.image := rfl
@[simp] theorem outByte_cfg (s : State) (b : Byte) : (s.outByte b).cfg = s.cfg := rfl

/-! ### latch -/

@[simp] theorem latch_x (s : State) : (s.latch).x = s.x := rfl
@[simp] theorem latch_pc (s : State) : (s.latch).pc = s.pc := rfl
@[simp] theorem latch_ipc (s : State) : (s.latch).ipc = s.pc := rfl
@[simp] theorem latch_run (s : State) : (s.latch).run = s.run := rfl
@[simp] theorem latch_fkind (s : State) : (s.latch).fkind = s.fkind := rfl
@[simp] theorem latch_fpc (s : State) : (s.latch).fpc = s.fpc := rfl
@[simp] theorem latch_mem (s : State) : (s.latch).mem = s.mem := rfl
@[simp] theorem latch_inp (s : State) : (s.latch).inp = s.inp := rfl
@[simp] theorem latch_out (s : State) : (s.latch).out = s.out := rfl
@[simp] theorem latch_image (s : State) : (s.latch).image = s.image := rfl
@[simp] theorem latch_cfg (s : State) : (s.latch).cfg = s.cfg := rfl

/-! ### increment -/

@[simp] theorem increment_x (s : State) : (s.increment).x = s.x := rfl
@[simp] theorem increment_pc (s : State) : (s.increment).pc = BitVec.ofNat 32 (s.pc.toNat + 1) := rfl
@[simp] theorem increment_ipc (s : State) : (s.increment).ipc = s.ipc := rfl
@[simp] theorem increment_run (s : State) : (s.increment).run = s.run := rfl
@[simp] theorem increment_fkind (s : State) : (s.increment).fkind = s.fkind := rfl
@[simp] theorem increment_fpc (s : State) : (s.increment).fpc = s.fpc := rfl
@[simp] theorem increment_mem (s : State) : (s.increment).mem = s.mem := rfl
@[simp] theorem increment_inp (s : State) : (s.increment).inp = s.inp := rfl
@[simp] theorem increment_out (s : State) : (s.increment).out = s.out := rfl
@[simp] theorem increment_image (s : State) : (s.increment).image = s.image := rfl
@[simp] theorem increment_cfg (s : State) : (s.increment).cfg = s.cfg := rfl

/-! ### executePhase -/

@[simp] theorem executePhase_x (s : State) : (s.executePhase).x = s.x := rfl
@[simp] theorem executePhase_pc (s : State) : (s.executePhase).pc = BitVec.ofNat 32 (s.pc.toNat + 1) := rfl
@[simp] theorem executePhase_ipc (s : State) : (s.executePhase).ipc = s.pc := rfl
@[simp] theorem executePhase_run (s : State) : (s.executePhase).run = s.run := rfl
@[simp] theorem executePhase_fkind (s : State) : (s.executePhase).fkind = s.fkind := rfl
@[simp] theorem executePhase_fpc (s : State) : (s.executePhase).fpc = s.fpc := rfl
@[simp] theorem executePhase_mem (s : State) : (s.executePhase).mem = s.mem := rfl
@[simp] theorem executePhase_inp (s : State) : (s.executePhase).inp = s.inp := rfl
@[simp] theorem executePhase_out (s : State) : (s.executePhase).out = s.out := rfl
@[simp] theorem executePhase_image (s : State) : (s.executePhase).image = s.image := rfl
@[simp] theorem executePhase_cfg (s : State) : (s.executePhase).cfg = s.cfg := rfl

/-! ### start -/

@[simp] theorem start_x (s : State) (m : Memory) : (s.start m).x = s.x := rfl
@[simp] theorem start_pc (s : State) (m : Memory) : (s.start m).pc = s.pc := rfl
@[simp] theorem start_ipc (s : State) (m : Memory) : (s.start m).ipc = s.ipc := rfl
@[simp] theorem start_run (s : State) (m : Memory) : (s.start m).run = .running := rfl
@[simp] theorem start_fkind (s : State) (m : Memory) : (s.start m).fkind = s.fkind := rfl
@[simp] theorem start_fpc (s : State) (m : Memory) : (s.start m).fpc = s.fpc := rfl
@[simp] theorem start_mem (s : State) (m : Memory) : (s.start m).mem = m := rfl
@[simp] theorem start_inp (s : State) (m : Memory) : (s.start m).inp = s.inp := rfl
@[simp] theorem start_out (s : State) (m : Memory) : (s.start m).out = s.out := rfl
@[simp] theorem start_image (s : State) (m : Memory) : (s.start m).image = s.image := rfl
@[simp] theorem start_cfg (s : State) (m : Memory) : (s.start m).cfg = s.cfg := rfl

/-! ### takeImage -/

@[simp] theorem takeImage_x (s : State) : (s.takeImage).x = s.x := rfl
@[simp] theorem takeImage_pc (s : State) : (s.takeImage).pc = s.pc := rfl
@[simp] theorem takeImage_ipc (s : State) : (s.takeImage).ipc = s.ipc := rfl
@[simp] theorem takeImage_run (s : State) : (s.takeImage).run = s.run := rfl
@[simp] theorem takeImage_fkind (s : State) : (s.takeImage).fkind = s.fkind := rfl
@[simp] theorem takeImage_fpc (s : State) : (s.takeImage).fpc = s.fpc := rfl
@[simp] theorem takeImage_mem (s : State) : (s.takeImage).mem = s.mem := rfl
@[simp] theorem takeImage_inp (s : State) : (s.takeImage).inp = s.inp := rfl
@[simp] theorem takeImage_out (s : State) : (s.takeImage).out = s.out := rfl
@[simp] theorem takeImage_image (s : State) : (s.takeImage).image = none := rfl
@[simp] theorem takeImage_cfg (s : State) : (s.takeImage).cfg = s.cfg := rfl

/-! ### raiseAt -/

@[simp] theorem raiseAt_x (s : State) (kind : FaultKind) (offset : Word) : (raiseAt kind offset s).x = s.x := rfl
@[simp] theorem raiseAt_pc (s : State) (kind : FaultKind) (offset : Word) : (raiseAt kind offset s).pc = s.pc := rfl
@[simp] theorem raiseAt_ipc (s : State) (kind : FaultKind) (offset : Word) : (raiseAt kind offset s).ipc = s.ipc := rfl
@[simp] theorem raiseAt_run (s : State) (kind : FaultKind) (offset : Word) : (raiseAt kind offset s).run = .faulted := rfl
@[simp] theorem raiseAt_fkind (s : State) (kind : FaultKind) (offset : Word) : (raiseAt kind offset s).fkind = some kind := rfl
@[simp] theorem raiseAt_fpc (s : State) (kind : FaultKind) (offset : Word) : (raiseAt kind offset s).fpc = offset := rfl
@[simp] theorem raiseAt_mem (s : State) (kind : FaultKind) (offset : Word) : (raiseAt kind offset s).mem = s.mem := rfl
@[simp] theorem raiseAt_inp (s : State) (kind : FaultKind) (offset : Word) : (raiseAt kind offset s).inp = s.inp := rfl
@[simp] theorem raiseAt_out (s : State) (kind : FaultKind) (offset : Word) : (raiseAt kind offset s).out = s.out := rfl
@[simp] theorem raiseAt_image (s : State) (kind : FaultKind) (offset : Word) : (raiseAt kind offset s).image = s.image := rfl
@[simp] theorem raiseAt_cfg (s : State) (kind : FaultKind) (offset : Word) : (raiseAt kind offset s).cfg = s.cfg := rfl

/-! ### The register file (R20) -/

theorem reg_eq (s : State) (r : Reg) : s.reg r = s.x[r] := rfl

@[simp] theorem reg_setReg_self (s : State) (r : Reg) (v : Word) : (s.setReg r v).reg r = v := by
  simp [reg_eq]

theorem reg_setReg_of_ne (s : State) {r r' : Reg} (v : Word) (h : r' ≠ r) :
    (s.setReg r v).reg r' = s.reg r' := by
  have : r.val ≠ r'.val := fun e => h (Fin.ext e.symm)
  simp [reg_eq, this]

/-! Reading a register sees only the register file. -/

@[simp] theorem reg_setMem (s : State) (m : Memory) (r : Reg) : (s.setMem m).reg r = s.reg r := rfl
@[simp] theorem reg_latch (s : State) (r : Reg) : s.latch.reg r = s.reg r := rfl
@[simp] theorem reg_executePhase (s : State) (r : Reg) : s.executePhase.reg r = s.reg r := rfl
@[simp] theorem reg_raiseAt (s : State) (kind : FaultKind) (offset : Word) (r : Reg) :
    (raiseAt kind offset s).reg r = s.reg r := rfl

/-- The pc of the execute phase is pc + 1 on words (R29, R102). -/
theorem executePhase_eq (s : State) : s.executePhase = { s with ipc := s.pc, pc := s.pc + 1 } := by
  have : BitVec.ofNat 32 (s.pc.toNat + 1) = s.pc + 1 := by
    apply BitVec.eq_of_toNat_eq
    simp
  simp [State.executePhase, State.latch, State.increment, this]

/-! ### The input channel (R174) -/

theorem inByte_nil {s : State} (h : s.inp = []) : s.inByte = (none, s) := by
  simp [State.inByte, h]

theorem inByte_cons {s : State} {b : Byte} {rest : List Byte} (h : s.inp = b :: rest) :
    s.inByte = (some b, { s with inp := rest }) := by
  simp [State.inByte, h]

/-- Reading a register of a register file in which one was written. -/
theorem getElem_set_reg (x : Vector Word 8) (a r : Reg) (v : Word) :
    (x.set a v)[r] = if r = a then v else x[r] := by
  by_cases h : r = a
  · subst h; simp
  · have : a.val ≠ r.val := fun e => h (Fin.ext e.symm)
    simp [this, h]

end Sys2Proof.Machine
end

