-- ==== Sys2Proof/Laws/Ops.lean ====
section
/-! SUPPORT. Once for each shared operation, everything it can answer: the Segment Table operations, the
raising of a fatal error, and the transactions. -/

namespace Sys2Proof.Machine

/-! ### Fatal errors -/

/-- What `completeOrRaise` can answer. -/
theorem completeOrRaise_next {α : Type} {r : Except FaultKind α} {s t : State} {f : α → State} :
    completeOrRaise r s f = .next t ↔
      (∃ a, r = .ok a ∧ t = f a) ∨ (∃ kind, r = .error kind ∧ t = raiseAt kind s.ipc s) := by
  cases r <;> simp [completeOrRaise, raiseFault, eq_comm]

@[simp] theorem completeOrRaise_ok {α : Type} (a : α) (s : State) (f : α → State) :
    completeOrRaise (.ok a) s f = .next (f a) := rfl

@[simp] theorem completeOrRaise_error {α : Type} (kind : FaultKind) (s : State) (f : α → State) :
    completeOrRaise (.error kind) s f = .next (raiseAt kind s.ipc s) := rfl

/-! ### SegRead (R44) -/

theorem segRead_ok_iff {m : Memory} {id off v : Word} :
    m.segRead id off = .ok v ↔
      ∃ sg, m.lookup id = some sg ∧ off.toNat < sg.len ∧ v = sg.wordAt off.toNat := by
  cases h : m.lookup id with
  | none => simp [Memory.segRead, h]
  | some sg =>
    by_cases hlt : off.toNat < sg.len <;> simp [Memory.segRead, h, hlt, eq_comm]

theorem segRead_of_none {m : Memory} {id : Word} (off : Word) (h : m.lookup id = none) :
    m.segRead id off = .error .invalidSegment := by
  simp [Memory.segRead, h]

theorem segRead_of_some {m : Memory} {id : Word} {sg : Segment} (off : Word)
    (h : m.lookup id = some sg) :
    m.segRead id off =
      if off.toNat < sg.len then .ok (sg.wordAt off.toNat) else .error .outOfBounds := by
  simp [Memory.segRead, h]

/-- A read depends on the live segment of its identifier only. -/
theorem segRead_congr {m m' : Memory} {id id' : Word} (off : Word) (h : m'.lookup id' = m.lookup id) :
    m'.segRead id' off = m.segRead id off := by
  simp [Memory.segRead, h]

/-! ### SegWrite (R45) -/

theorem segWrite_ok_iff {m m' : Memory} {id off v : Word} :
    m.segWrite id off v = .ok m' ↔
      ∃ sg, m.lookup id = some sg ∧ off.toNat < sg.len ∧
        m' = m.setSlot id (.mapped (sg.setWord off.toNat v)) := by
  cases h : m.lookup id with
  | none => simp [Memory.segWrite, h]
  | some sg =>
    by_cases hlt : off.toNat < sg.len <;> simp [Memory.segWrite, h, hlt, eq_comm]

theorem segWrite_of_none {m : Memory} {id : Word} (off v : Word) (h : m.lookup id = none) :
    m.segWrite id off v = .error .invalidSegment := by
  simp [Memory.segWrite, h]

theorem segWrite_of_some {m : Memory} {id : Word} {sg : Segment} (off v : Word)
    (h : m.lookup id = some sg) :
    m.segWrite id off v =
      if off.toNat < sg.len then .ok (m.setSlot id (.mapped (sg.setWord off.toNat v)))
      else .error .outOfBounds := by
  simp [Memory.segWrite, h]

/-! ### SegAlloc (R46) -/

theorem roomFor_iff {cfg : Config} {m : Memory} {len : Nat} :
    m.roomFor cfg len = true ↔ len ≤ cfg.maxSegWords ∧ m.usedWords + len ≤ cfg.memCapacityWords := by
  simp [Memory.roomFor]

/-- The two ways an allocation succeeds: a pooled identifier, or a new slot. -/
theorem segAlloc_ok_iff {cfg : Config} {m m' : Memory} {len id : Word} :
    m.segAlloc cfg len = .ok (id, m') ↔
      m.roomFor cfg len.toNat = true ∧
      ((∃ rest, m.pool = id :: rest ∧
          m' = { seg := m.seg.set id.toNat (.mapped (Segment.zeros len.toNat)), pool := rest }) ∨
       (m.pool = [] ∧ m.size < cfg.maxSegments ∧ id = BitVec.ofNat 32 m.size ∧
          m' = { seg := m.seg ++ [.mapped (Segment.zeros len.toNat)], pool := [] })) := by
  unfold Memory.segAlloc
  split
  · rename_i hr
    split
    · rename_i top rest hp
      simp only [hr, hp, true_and, Except.ok.injEq, Prod.mk.injEq]
      constructor
      · rintro ⟨rfl, rfl⟩; exact .inl ⟨rest, rfl, rfl⟩
      · rintro (⟨rest', he, rfl⟩ | ⟨he, _⟩)
        · simp only [List.cons.injEq] at he
          obtain ⟨rfl, rfl⟩ := he
          exact ⟨rfl, rfl⟩
        · exact absurd he (by simp)
    · rename_i hp
      split
      · rename_i hs
        simp only [hr, hp, hs, true_and, Except.ok.injEq, Prod.mk.injEq]
        constructor
        · rintro ⟨rfl, rfl⟩; exact .inr ⟨rfl, rfl⟩
        · rintro (⟨_, he, _⟩ | ⟨rfl, rfl⟩)
          · exact absurd he (by simp)
          · exact ⟨rfl, rfl⟩
      · rename_i hs
        simp [hp, hs]
  · rename_i hr
    simp [hr]

/-- The only fault of an allocation is ResourceExhausted, and it comes from a limit (R55, R192). -/
theorem segAlloc_error {cfg : Config} {m : Memory} {len : Word}
    (h : m.roomFor cfg len.toNat = false ∨ (m.pool = [] ∧ cfg.maxSegments ≤ m.size)) :
    m.segAlloc cfg len = .error .resourceExhausted := by
  unfold Memory.segAlloc
  rcases h with h | ⟨hp, hs⟩
  · simp [h]
  · simp [hp, Nat.not_lt.mpr hs]

/-! ### SegFree (R47) -/

theorem segFree_of_some {m : Memory} {id : Word} {sg : Segment} (h0 : id ≠ 0)
    (h : m.lookup id = some sg) :
    m.segFree id = .ok { seg := m.seg.set id.toNat .unmapped, pool := id :: m.pool } := by
  rw [Memory.segFree, if_neg h0, Memory.valid, h]
  rfl

theorem segFree_error {m : Memory} {id : Word} (h : id = 0 ∨ m.lookup id = none) :
    m.segFree id = .error .invalidSegment := by
  unfold Memory.segFree Memory.valid
  rcases h with h | h
  · simp [h]
  · simp [h]

theorem segFree_ok_iff {m m' : Memory} {id : Word} :
    m.segFree id = .ok m' ↔
      id ≠ 0 ∧ (∃ sg, m.lookup id = some sg) ∧
        m' = { seg := m.seg.set id.toNat .unmapped, pool := id :: m.pool } := by
  by_cases h0 : id = 0
  · rw [segFree_error (.inl h0)]
    exact ⟨fun h => absurd h (by simp), fun h => absurd h0 h.1⟩
  · cases h : m.lookup id with
    | none =>
      rw [segFree_error (.inr h)]
      exact ⟨fun h => absurd h (by simp), fun h => by simpa using h.2.1⟩
    | some sg =>
      rw [segFree_of_some h0 h, Except.ok.injEq, eq_comm]
      exact ⟨fun h => ⟨h0, ⟨sg, rfl⟩, h⟩, fun h => h.2.2⟩

/-! ### SegDup (R48) -/

theorem roomForProgram_iff {cfg : Config} {m : Memory} {sg : Segment} :
    m.roomForProgram cfg sg = true ↔
      m.usedWords - m.segLen 0 + sg.len ≤ cfg.memCapacityWords := by
  simp [Memory.roomForProgram]

theorem segLen_of_some {m : Memory} {id : Word} {sg : Segment} (h : m.lookup id = some sg) :
    m.segLen id = sg.len := by
  simp [Memory.segLen, h]

theorem segDup_of_none {cfg : Config} {m : Memory} {src : Word} (h : m.lookup src = none) :
    m.segDup cfg src = .error .invalidSegment := by
  simp [Memory.segDup, h]

theorem segDup_zero {cfg : Config} {m : Memory} {src : Word} {sg : Segment}
    (h : m.lookup src = some sg) (h0 : src = 0) : m.segDup cfg src = .ok m := by
  simp only [Memory.segDup, h]
  exact if_pos h0

theorem segDup_copies {cfg : Config} {m : Memory} {src : Word} {sg : Segment}
    (h : m.lookup src = some sg) (h0 : src ≠ 0) (hr : m.roomForProgram cfg sg = true) :
    m.segDup cfg src = .ok (m.setSlot 0 (.mapped sg)) := by
  simp only [Memory.segDup, h]
  rw [if_neg h0, if_pos hr]

theorem segDup_exhausted {cfg : Config} {m : Memory} {src : Word} {sg : Segment}
    (h : m.lookup src = some sg) (h0 : src ≠ 0) (hr : m.roomForProgram cfg sg = false) :
    m.segDup cfg src = .error .resourceExhausted := by
  simp only [Memory.segDup, h]
  rw [if_neg h0, if_neg (by simp [hr])]

theorem segDup_ok_iff {cfg : Config} {m m' : Memory} {src : Word} :
    m.segDup cfg src = .ok m' ↔
      ∃ sg, m.lookup src = some sg ∧
        ((src = 0 ∧ m' = m) ∨
         (src ≠ 0 ∧ m.roomForProgram cfg sg = true ∧ m' = m.setSlot 0 (.mapped sg))) := by
  cases h : m.lookup src with
  | none =>
    rw [segDup_of_none h]
    exact ⟨fun h => absurd h (by simp), fun ⟨_, h, _⟩ => absurd h (by simp)⟩
  | some sg =>
    by_cases h0 : src = 0
    · rw [segDup_zero h h0, Except.ok.injEq, eq_comm]
      exact ⟨fun h => ⟨sg, rfl, .inl ⟨h0, h⟩⟩,
        fun ⟨_, _, h⟩ => h.elim And.right fun h => absurd h0 h.1⟩
    · cases hr : m.roomForProgram cfg sg with
      | true =>
        rw [segDup_copies h h0 hr, Except.ok.injEq, eq_comm]
        refine ⟨fun h => ⟨sg, rfl, .inr ⟨h0, hr, h⟩⟩, ?_⟩
        rintro ⟨sg', he, hz | ⟨_, _, hm⟩⟩
        · exact absurd hz.1 h0
        · exact hm.trans (by rw [Option.some.inj he])
      | false =>
        rw [segDup_exhausted h h0 hr]
        refine ⟨fun h => absurd h (by simp), ?_⟩
        rintro ⟨sg', he, hz | ⟨_, hr', _⟩⟩
        · exact absurd hz.1 h0
        · rw [← Option.some.inj he, hr] at hr'
          exact absurd hr' (by simp)

/-! ### SegLoadInitial (R49) -/

theorem segLoadInitial_ok_iff {cfg : Config} {words : List Word} {m : Memory} :
    Memory.segLoadInitial cfg words = .ok m ↔
      words.length ≤ cfg.maxSegWords ∧ words.length ≤ cfg.memCapacityWords ∧
        m = { seg := [.mapped (Segment.ofWords words)], pool := [] } := by
  unfold Memory.segLoadInitial
  split
  · rename_i h
    simp only [Bool.and_eq_true, decide_eq_true_eq] at h
    simp only [Except.ok.injEq, h.1, h.2, true_and]
    exact eq_comm
  · rename_i h
    simp only [Bool.and_eq_true, decide_eq_true_eq] at h
    constructor
    · intro he; exact absurd he (by simp)
    · rintro ⟨h1, h2, -⟩; exact absurd ⟨h1, h2⟩ h

theorem segLoadInitial_error {cfg : Config} {words : List Word}
    (h : cfg.maxSegWords < words.length ∨ cfg.memCapacityWords < words.length) :
    Memory.segLoadInitial cfg words = .error .resourceExhausted := by
  unfold Memory.segLoadInitial
  rw [if_neg]
  simp only [Bool.and_eq_true, decide_eq_true_eq]
  omega

/-! ### Transactions (R63) -/

@[simp] theorem after_fetch (cfg : Config) (m : Memory) (off : Word) :
    m.after cfg (.fetch off) = m := by
  simp only [Memory.after, Memory.transact, unchanged]
  cases m.segRead 0 off <;> rfl

@[simp] theorem after_read (cfg : Config) (m : Memory) (id off : Word) :
    m.after cfg (.read id off) = m := by
  simp only [Memory.after, Memory.transact, unchanged]
  cases m.segRead id off <;> rfl

@[simp] theorem after_releaseAll (cfg : Config) (m : Memory) : m.after cfg .releaseAll = m := rfl

/-- A transaction that gives a new table, and one that faults. -/
theorem after_write {cfg : Config} {m : Memory} {id off v : Word} :
    m.after cfg (.write id off v) =
      (match m.segWrite id off v with | .ok m' => m' | .error _ => m) := by
  simp only [Memory.after, Memory.transact, changed]
  cases m.segWrite id off v <;> rfl

theorem after_alloc {cfg : Config} {m : Memory} {len : Word} :
    m.after cfg (.alloc len) = (match m.segAlloc cfg len with | .ok r => r.2 | .error _ => m) := by
  simp only [Memory.after, Memory.transact]
  cases m.segAlloc cfg len <;> rfl

theorem after_free {cfg : Config} {m : Memory} {id : Word} :
    m.after cfg (.free id) = (match m.segFree id with | .ok m' => m' | .error _ => m) := by
  simp only [Memory.after, Memory.transact, changed]
  cases m.segFree id <;> rfl

theorem after_dup {cfg : Config} {m : Memory} {src : Word} :
    m.after cfg (.dup src) = (match m.segDup cfg src with | .ok m' => m' | .error _ => m) := by
  simp only [Memory.after, Memory.transact, changed]
  cases m.segDup cfg src <;> rfl

theorem after_loadInitial {cfg : Config} {m : Memory} {words : List Word} :
    m.after cfg (.loadInitial words) =
      (match Memory.segLoadInitial cfg words with | .ok m' => m' | .error _ => m) := by
  simp only [Memory.after, Memory.transact, changed]
  cases Memory.segLoadInitial cfg words <;> rfl

/-! ### One slot replaced or appended, seen through SegRead -/

/-- Every other identifier reads as before when one slot is replaced. -/
theorem segRead_set_other {m : Memory} {pool : List Word} {id id' : Word} {slot : Slot} (off : Word)
    (h : id.toNat < m.seg.length) (hne : id' ≠ id) :
    Memory.segRead { seg := m.seg.set id.toNat slot, pool := pool } id' off = m.segRead id' off :=
  segRead_congr off (by rw [lookup_set _ _ _ _ _ h, if_neg hne])

/-- Every other identifier names what it named before when a slot is appended. -/
theorem lookup_append {m : Memory} {pool : List Word} {slot : Slot} (id : Word)
    (hne : id.toNat ≠ m.seg.length) :
    Memory.lookup { seg := m.seg ++ [slot], pool := pool } id = m.lookup id := by
  unfold Memory.lookup
  by_cases h : id.toNat < m.seg.length
  · simp only [List.getElem?_append_left h]
  · have h1 : (m.seg ++ [slot])[id.toNat]? = none := by
      rw [List.getElem?_eq_none_iff]; simp; omega
    have h2 : m.seg[id.toNat]? = none := by rw [List.getElem?_eq_none_iff]; omega
    simp only [h1, h2]

/-- A zero-filled segment reads as zeros up to its length. -/
theorem segRead_of_zeros {m : Memory} {id : Word} {n : Nat}
    (h : m.lookup id = some (Segment.zeros n)) (off : Word) :
    m.segRead id off = if off.toNat < n then .ok 0 else .error .outOfBounds := by
  rw [segRead_of_some _ h]; rfl

/-- An allocation takes the top of the pool when there is one (R46). -/
theorem segAlloc_of_pool {cfg : Config} {m : Memory} {len top : Word} {rest : List Word}
    (hr : m.roomFor cfg len.toNat = true) (hp : m.pool = top :: rest) :
    m.segAlloc cfg len =
      .ok (top, { seg := m.seg.set top.toNat (.mapped (Segment.zeros len.toNat)), pool := rest }) :=
  segAlloc_ok_iff.mpr ⟨hr, .inl ⟨rest, hp, rfl⟩⟩

end Sys2Proof.Machine
end

