-- ==== Sys2Proof/Laws/Exec.lean ====
section
/-! SUPPORT. What the meanings have in common: exec always answers a next state, the table changes by the
execute transaction only, and the rest of the state changes in the listed ways only. -/

namespace Sys2Proof.Machine

/-- The meanings written with `completeOrRaise` or as a next state: exec never stops the machine. -/
theorem exec_answers_next (i : Instr) (s : State) : ∃ t, exec i s = .next t := by
  have h : ∀ {α : Type} (r : Except FaultKind α) (f : α → State),
      ∃ t, completeOrRaise r s f = .next t := fun r f => by cases r <;> exact ⟨_, rfl⟩
  cases i
  case sload => exact h _ _
  case sstore => exact h _ _
  case div => exact h _ _
  case alloc => exact h _ _
  case free => exact h _ _
  case loadp => exact h _ _
  case output c =>
    by_cases hb : isByte (s.reg c) = true
    · exact ⟨_, by simp only [exec, execOutput, hb]; rfl⟩
    · exact ⟨_, by simp only [exec, execOutput, hb]; rfl⟩
  all_goals exact ⟨_, rfl⟩

/-- What a completed instruction does outside its own effect: the fault report, the parameters, the latch and
the offered image are as they were, and only halt changes the run state. -/
structure Completed (i : Instr) (s t : State) : Prop where
  run   : t.run = s.run ∨ (i = .halt ∧ t.run = .halted)
  fkind : t.fkind = s.fkind
  fpc   : t.fpc = s.fpc
  ipc   : t.ipc = s.ipc
  image : t.image = s.image
  cfg   : t.cfg = s.cfg

theorem inByte_frame (s : State) :
    s.inByte.2.x = s.x ∧ s.inByte.2.pc = s.pc ∧ s.inByte.2.ipc = s.ipc ∧ s.inByte.2.run = s.run ∧
    s.inByte.2.fkind = s.fkind ∧ s.inByte.2.fpc = s.fpc ∧ s.inByte.2.mem = s.mem ∧
    s.inByte.2.out = s.out ∧ s.inByte.2.image = s.image ∧ s.inByte.2.cfg = s.cfg := by
  cases h : s.inp with
  | nil => simp [inByte_nil h]
  | cons b rest => simp [inByte_cons h]

/-- R107: an instruction completes, or it records a fatal error and changes nothing else. -/
theorem exec_cases {i : Instr} {s t : State} (h : exec i s = .next t) :
    Completed i s t ∨ ∃ kind, t = raiseAt kind s.ipc s := by
  have same : ∀ {u : State}, u = t → u.run = s.run → u.fkind = s.fkind → u.fpc = s.fpc →
      u.ipc = s.ipc → u.image = s.image → u.cfg = s.cfg →
      Completed i s t ∨ ∃ kind, t = raiseAt kind s.ipc s := by
    rintro u rfl h1 h2 h3 h4 h5 h6
    exact .inl ⟨.inl h1, h2, h3, h4, h5, h6⟩
  have orRaise : ∀ {α : Type} {r : Except FaultKind α} {f : α → State},
      completeOrRaise r s f = .next t →
      (∀ a, (f a).run = s.run ∧ (f a).fkind = s.fkind ∧ (f a).fpc = s.fpc ∧ (f a).ipc = s.ipc ∧
        (f a).image = s.image ∧ (f a).cfg = s.cfg) →
      Completed i s t ∨ ∃ kind, t = raiseAt kind s.ipc s := by
    intro α r f hc hf
    rcases completeOrRaise_next.mp hc with ⟨a, _, rfl⟩ | ⟨kind, _, rfl⟩
    · obtain ⟨h1, h2, h3, h4, h5, h6⟩ := hf a
      exact .inl ⟨.inl h1, h2, h3, h4, h5, h6⟩
    · exact .inr ⟨kind, rfl⟩
  cases i
  case cmov a b c =>
    simp only [exec, execCmov, Host.Outcome.next.injEq] at h
    split at h <;> exact same h rfl rfl rfl rfl rfl rfl
  case sload => exact orRaise h fun _ => ⟨rfl, rfl, rfl, rfl, rfl, rfl⟩
  case sstore => exact orRaise h fun _ => ⟨rfl, rfl, rfl, rfl, rfl, rfl⟩
  case div => exact orRaise h fun _ => ⟨rfl, rfl, rfl, rfl, rfl, rfl⟩
  case alloc => exact orRaise h fun _ => ⟨rfl, rfl, rfl, rfl, rfl, rfl⟩
  case free => exact orRaise h fun _ => ⟨rfl, rfl, rfl, rfl, rfl, rfl⟩
  case loadp => exact orRaise h fun _ => ⟨rfl, rfl, rfl, rfl, rfl, rfl⟩
  case add => exact same (Host.Outcome.next.inj h) rfl rfl rfl rfl rfl rfl
  case mul => exact same (Host.Outcome.next.inj h) rfl rfl rfl rfl rfl rfl
  case nand => exact same (Host.Outcome.next.inj h) rfl rfl rfl rfl rfl rfl
  case loadi => exact same (Host.Outcome.next.inj h) rfl rfl rfl rfl rfl rfl
  case halt =>
    obtain rfl := Host.Outcome.next.inj h
    exact .inl ⟨.inr ⟨rfl, rfl⟩, rfl, rfl, rfl, rfl, rfl⟩
  case input c =>
    obtain ⟨-, -, h3, h4, h5, h6, -, -, h9, h10⟩ := inByte_frame s
    exact same (Host.Outcome.next.inj h) h4 h5 h6 h3 h9 h10
  case output c =>
    simp only [exec, execOutput] at h
    split at h
    · exact same (Host.Outcome.next.inj h) rfl rfl rfl rfl rfl rfl
    · exact .inr ⟨.invalidOutput, (Host.Outcome.next.inj h).symm⟩

/-- The table after an instruction is the table after its execute transaction (R63, R64). -/
theorem exec_mem {i : Instr} {s t : State} (h : exec i s = .next t) :
    t.mem = (match executeRequest s i with | some q => s.mem.after s.cfg q | none => s.mem) := by
  cases i
  case cmov a b c =>
    simp only [exec, execCmov, Host.Outcome.next.injEq] at h
    subst h
    split <;> rfl
  case sload a b c =>
    rcases completeOrRaise_next.mp h with ⟨v, _, rfl⟩ | ⟨_, _, rfl⟩ <;> simp [executeRequest]
  case sstore a b c =>
    rcases completeOrRaise_next.mp h with ⟨m, hm, rfl⟩ | ⟨_, hm, rfl⟩ <;>
      simp [executeRequest, after_write, hm]
  case div =>
    rcases completeOrRaise_next.mp h with ⟨v, _, rfl⟩ | ⟨_, _, rfl⟩ <;> simp [executeRequest]
  case alloc b c =>
    rcases completeOrRaise_next.mp h with ⟨r, hm, rfl⟩ | ⟨_, hm, rfl⟩ <;>
      simp [executeRequest, after_alloc, hm]
  case free c =>
    rcases completeOrRaise_next.mp h with ⟨m, hm, rfl⟩ | ⟨_, hm, rfl⟩ <;>
      simp [executeRequest, after_free, hm]
  case loadp b c =>
    rcases completeOrRaise_next.mp h with ⟨m, hm, rfl⟩ | ⟨_, hm, rfl⟩ <;>
      simp [executeRequest, after_dup, hm]
  case add => obtain rfl := Host.Outcome.next.inj h; rfl
  case mul => obtain rfl := Host.Outcome.next.inj h; rfl
  case nand => obtain rfl := Host.Outcome.next.inj h; rfl
  case loadi => obtain rfl := Host.Outcome.next.inj h; rfl
  case halt => obtain rfl := Host.Outcome.next.inj h; rfl
  case input c =>
    obtain rfl := Host.Outcome.next.inj h
    exact (inByte_frame s).2.2.2.2.2.2.1
  case output c =>
    simp only [exec, execOutput] at h
    split at h <;> (obtain rfl := Host.Outcome.next.inj h; rfl)

/-! ### The step -/

theorem step_of_loading {s : State} (h : s.run = .loading) : step s = loadingStep s := by
  simp [step, h]

theorem step_of_running {s : State} (h : s.run = .running) : step s = runningStep s := by
  simp [step, h]

theorem runningStep_of_fault {s : State} {kind : FaultKind} (h : s.mem.segRead 0 s.pc = .error kind) :
    runningStep s = .next (raiseAt kind s.pc s.latch) := by
  simp only [runningStep, State.fetch, h]
  rfl

theorem runningStep_of_word {s : State} {w : Word} (h : s.mem.segRead 0 s.pc = .ok w) :
    runningStep s = executeWord w s.executePhase := by
  simp only [runningStep, State.fetch, h]

/-- The three ways a RUNNING step goes: the fetch faults, the word is invalid, or its instruction runs. -/
theorem runningStep_cases {s t : State} (h : runningStep s = .next t) :
    (∃ kind, s.mem.segRead 0 s.pc = .error kind ∧ t = raiseAt kind s.pc s.latch) ∨
    (∃ w, s.mem.segRead 0 s.pc = .ok w ∧ decode w = .error .unknownOpcode ∧
      t = raiseAt .unknownOpcode s.pc s.executePhase) ∨
    (∃ w i, s.mem.segRead 0 s.pc = .ok w ∧ decode w = .ok i ∧ exec i s.executePhase = .next t) := by
  cases hf : s.mem.segRead 0 s.pc with
  | error kind =>
    rw [runningStep_of_fault hf] at h
    exact .inl ⟨kind, rfl, (Host.Outcome.next.inj h).symm⟩
  | ok w =>
    rw [runningStep_of_word hf, executeWord] at h
    cases hd : decode w with
    | error e =>
      cases e
      rw [hd] at h
      exact .inr (.inl ⟨w, rfl, hd, (Host.Outcome.next.inj h).symm⟩)
    | ok i =>
      rw [hd] at h
      exact .inr (.inr ⟨w, i, rfl, hd, h⟩)

/-- What LOADING can answer: the run starts, or the load faults. -/
theorem loadingStep_cases {s t : State} (h : loadingStep s = .next t) :
    ∃ bytes, s.image = some bytes ∧
      ((∃ m, imageMemory s.cfg bytes = .ok m ∧ t = s.takeImage.start m) ∨
       (∃ kind, imageMemory s.cfg bytes = .error kind ∧ t = raiseAt kind 0 s.takeImage)) := by
  unfold loadingStep at h
  split at h
  · rename_i bytes hi
    refine ⟨bytes, hi, ?_⟩
    unfold loadImage at h
    split at h
    · rename_i m hm
      exact .inl ⟨m, hm, (Host.Outcome.next.inj h).symm⟩
    · rename_i kind hm
      exact .inr ⟨kind, hm, (Host.Outcome.next.inj h).symm⟩
  · exact absurd h (by simp)

/-- A step that answers a next state is one of LOADING or RUNNING. -/
theorem step_cases {s t : State} (h : step s = .next t) :
    (s.run = .loading ∧ loadingStep s = .next t) ∨ (s.run = .running ∧ runningStep s = .next t) := by
  unfold step at h
  split at h
  · exact .inl ⟨‹_›, h⟩
  · exact .inr ⟨‹_›, h⟩
  · exact absurd h (by simp)
  · exact absurd h (by simp)

/-- A RUNNING step whose word decodes (R101 to R104). -/
theorem step_of_instr {s : State} {w : Word} {i : Instr} (hr : s.run = .running)
    (hf : s.mem.segRead 0 s.pc = .ok w) (hd : decode w = .ok i) :
    step s = exec i s.executePhase := by
  rw [step_of_running hr, runningStep_of_word hf, executeWord, hd]

/-- The pc that a completed instruction leaves: only load-program redirects it (R105). -/
theorem exec_pc {i : Instr} {s t : State} (h : exec i s = .next t) (hr : t.run ≠ .faulted) :
    (∃ b c, i = .loadp b c ∧ t.pc = s.reg c) ∨ ((∀ b c, i ≠ .loadp b c) ∧ t.pc = s.pc) := by
  have oR : ∀ {α : Type} {r : Except FaultKind α} {f : α → State},
      completeOrRaise r s f = .next t → ∃ a, t = f a := by
    intro α r f hc
    rcases completeOrRaise_next.mp hc with ⟨a, _, rfl⟩ | ⟨k, _, rfl⟩
    · exact ⟨a, rfl⟩
    · exact absurd rfl hr
  cases i
  case loadp b c => obtain ⟨a, rfl⟩ := oR h; exact .inl ⟨b, c, rfl, rfl⟩
  all_goals right; refine ⟨by simp, ?_⟩
  case sload => obtain ⟨a, rfl⟩ := oR h; rfl
  case sstore => obtain ⟨a, rfl⟩ := oR h; rfl
  case div => obtain ⟨a, rfl⟩ := oR h; rfl
  case alloc => obtain ⟨a, rfl⟩ := oR h; rfl
  case free => obtain ⟨a, rfl⟩ := oR h; rfl
  case cmov => simp only [exec, execCmov, Host.Outcome.next.injEq] at h; subst h; split <;> rfl
  case input c => obtain rfl := Host.Outcome.next.inj h; exact (inByte_frame s).2.1
  case output c =>
    simp only [exec, execOutput] at h
    split at h <;> (obtain rfl := Host.Outcome.next.inj h; rfl)
  all_goals obtain rfl := Host.Outcome.next.inj h; rfl

end Sys2Proof.Machine
end

