-- ==== Sys2Proof/Laws/Invariant.lean ====
section
/-! SUPPORT. Every transaction keeps the memory's canonical form, the limits, the exact pool and segment 0
mapped (spec/20_memory.md rules R50 to R55). -/

namespace Sys2Proof.Machine

/-! ### Replacing one slot -/

theorem mem_set_mapped {seg : List Slot} {n : Nat} {slot : Slot} {sg : Segment}
    (h : Slot.mapped sg ∈ seg.set n slot) : Slot.mapped sg ∈ seg ∨ slot = .mapped sg := by
  rcases List.mem_or_eq_of_mem_set h with h | h
  · exact .inl h
  · exact .inr h.symm

/-- A live segment replaced by another keeps the pool exact. -/
theorem poolExact_set_mapped {m : Memory} {n : Nat} {old sg : Segment} (h : PoolExact m)
    (hn : m.seg[n]? = some (.mapped old)) :
    PoolExact { seg := m.seg.set n (.mapped sg), pool := m.pool } where
  nodup := h.nodup
  unmapped := by
    intro id hid
    have hu := h.unmapped id hid
    have hne : n ≠ id.toNat := by rintro rfl; simp [hn] at hu
    simpa [List.getElem?_set_ne hne] using hu
  pooled := by
    intro k hk hu
    simp only [List.length_set] at hk
    by_cases he : n = k
    · subst he; simp [List.getElem?_set_self hk] at hu
    · rw [List.getElem?_set_ne he] at hu
      exact h.pooled k hk hu

/-- The limits after one slot is replaced. -/
theorem withinLimits_set {cfg : Config} {m : Memory} {pool : List Word} {n : Nat} {old slot : Slot}
    (h : WithinLimits cfg m) (hn : m.seg[n]? = some old)
    (hw : m.usedWords - old.wordCount + slot.wordCount ≤ cfg.memCapacityWords)
    (hs : ∀ sg, slot = .mapped sg → sg.len ≤ cfg.maxSegWords) :
    WithinLimits cfg { seg := m.seg.set n slot, pool := pool } where
  slots := by simpa using h.slots
  words := by
    have := usedWords_set pool slot hn
    omega
  each := by
    intro sg hsg
    rcases mem_set_mapped hsg with hm | he
    · exact h.each sg hm
    · exact hs sg he

/-! ### The canonical form -/

theorem segWrite_wf {m m' : Memory} {id off v : Word} (h : m.wf = true)
    (hw : m.segWrite id off v = .ok m') : m'.wf = true := by
  obtain ⟨sg, hl, hlt, rfl⟩ := segWrite_ok_iff.mp hw
  exact wf_set m.pool h (setWord_wf (wf_of_lookup h hl) v hlt)

theorem segAlloc_wf {cfg : Config} {m m' : Memory} {len id : Word} (h : m.wf = true)
    (ha : m.segAlloc cfg len = .ok (id, m')) : m'.wf = true := by
  obtain ⟨_, ⟨rest, _, rfl⟩ | ⟨_, _, _, rfl⟩⟩ := segAlloc_ok_iff.mp ha
  · exact wf_set rest h rfl
  · simp only [Memory.wf, List.all_append, Bool.and_eq_true] at h ⊢
    exact ⟨h, rfl⟩

theorem segFree_wf {m m' : Memory} {id : Word} (h : m.wf = true) (hf : m.segFree id = .ok m') :
    m'.wf = true := by
  obtain ⟨_, _, rfl⟩ := segFree_ok_iff.mp hf
  exact wf_set _ h rfl

theorem segDup_wf {cfg : Config} {m m' : Memory} {src : Word} (h : m.wf = true)
    (hd : m.segDup cfg src = .ok m') : m'.wf = true := by
  obtain ⟨sg, hl, ⟨_, rfl⟩ | ⟨_, _, rfl⟩⟩ := segDup_ok_iff.mp hd
  · exact h
  · exact wf_set m.pool h (wf_of_lookup h hl)

theorem segLoadInitial_wf {cfg : Config} {words : List Word} {m : Memory}
    (h : Memory.segLoadInitial cfg words = .ok m) : m.wf = true := by
  obtain ⟨_, _, rfl⟩ := segLoadInitial_ok_iff.mp h
  simp [Memory.wf, Slot.wf, ofWords_wf]

/-- Every transaction keeps the canonical form. -/
theorem after_wf {cfg : Config} {m : Memory} (q : Request) (h : m.wf = true) :
    (m.after cfg q).wf = true := by
  cases q with
  | fetch off => simpa using h
  | read id off => simpa using h
  | releaseAll => exact h
  | write id off v =>
    rw [after_write]
    split
    · exact segWrite_wf h ‹_›
    · exact h
  | alloc len =>
    rw [after_alloc]
    split
    · exact segAlloc_wf h ‹_›
    · exact h
  | free id =>
    rw [after_free]
    split
    · exact segFree_wf h ‹_›
    · exact h
  | dup src =>
    rw [after_dup]
    split
    · exact segDup_wf h ‹_›
    · exact h
  | loadInitial words =>
    rw [after_loadInitial]
    split
    · exact segLoadInitial_wf ‹_›
    · exact h

/-! ### The limits, the pool and segment 0 -/

/-- What a RUNNING machine's table keeps. -/
structure TableOk (cfg : Config) (m : Memory) : Prop where
  limits : WithinLimits cfg m
  pool   : PoolExact m
  zero   : m.valid 0 = true

theorem TableOk.size_le {cfg : Config} {m : Memory} (h : TableOk cfg m) :
    m.seg.length ≤ 4294967296 := by
  have h1 := h.limits.slots
  have h2 := cfg.maxSegments_le
  omega

theorem valid_zero_iff {m : Memory} : m.valid 0 = true ↔ ∃ sg, m.seg[0]? = some (.mapped sg) := by
  unfold Memory.valid
  rw [Option.isSome_iff_exists]
  constructor
  · rintro ⟨sg, h⟩; exact ⟨sg, lookup_eq_some.mp h⟩
  · rintro ⟨sg, h⟩; exact ⟨sg, lookup_eq_some.mpr h⟩

theorem segWrite_tableOk {cfg : Config} {m m' : Memory} {id off v : Word} (h : TableOk cfg m)
    (hw : m.segWrite id off v = .ok m') : TableOk cfg m' := by
  obtain ⟨sg, hl, hlt, rfl⟩ := segWrite_ok_iff.mp hw
  have hs := lookup_eq_some.mp hl
  have hlen := len_le_usedWords hs
  have hmem : Slot.mapped sg ∈ m.seg := List.mem_of_getElem? hs
  refine ⟨withinLimits_set h.limits hs ?_ ?_, poolExact_set_mapped h.pool hs, ?_⟩
  · have := h.limits.words
    simp only [Slot.wordCount, setWord_len]
    omega
  · rintro sg' he
    cases he
    exact h.limits.each sg hmem
  · obtain ⟨z, hz⟩ := valid_zero_iff.mp h.zero
    rw [valid_zero_iff]
    by_cases he : id.toNat = 0
    · rw [setSlot_seg, he]
      have : 0 < m.seg.length := (List.getElem?_eq_some_iff.mp hz).1
      exact ⟨sg.setWord off.toNat v, by simp [this]⟩
    · exact ⟨z, by rw [setSlot_seg, List.getElem?_set_ne he, hz]⟩

theorem segAlloc_tableOk {cfg : Config} {m m' : Memory} {len id : Word} (h : TableOk cfg m)
    (ha : m.segAlloc cfg len = .ok (id, m')) : TableOk cfg m' := by
  obtain ⟨hr, hcase⟩ := segAlloc_ok_iff.mp ha
  obtain ⟨hlen, hcap⟩ := roomFor_iff.mp hr
  obtain ⟨z, hz⟩ := valid_zero_iff.mp h.zero
  have hz0 : 0 < m.seg.length := (List.getElem?_eq_some_iff.mp hz).1
  rcases hcase with ⟨rest, hp, rfl⟩ | ⟨hp, hsize, rfl, rfl⟩
  · have hmem : id ∈ m.pool := by rw [hp]; exact List.mem_cons_self ..
    have hu := h.pool.unmapped id hmem
    have hidlt : id.toNat < m.seg.length := (List.getElem?_eq_some_iff.mp hu).1
    have hnd := h.pool.nodup
    rw [hp, List.nodup_cons] at hnd
    refine ⟨withinLimits_set h.limits hu ?_ ?_, ⟨hnd.2, ?_, ?_⟩, ?_⟩
    · simpa [Slot.wordCount] using hcap
    · rintro sg he
      cases he
      exact hlen
    · intro id' hid'
      have hne : id.toNat ≠ id'.toNat := by
        intro e
        exact hnd.1 (BitVec.eq_of_toNat_eq e ▸ hid')
      simp only [List.getElem?_set_ne hne]
      exact h.pool.unmapped id' (by rw [hp]; exact List.mem_cons_of_mem _ hid')
    · intro n hn hun
      simp only [List.length_set] at hn
      have hne : id.toNat ≠ n := by
        rintro rfl
        simp [List.getElem?_set_self hn] at hun
      rw [List.getElem?_set_ne hne] at hun
      have := h.pool.pooled n hn hun
      rw [hp, List.mem_cons] at this
      rcases this with e | hm
      · exfalso
        apply hne
        rw [← e, BitVec.toNat_ofNat, Nat.mod_eq_of_lt]
        have := h.size_le
        omega
      · exact hm
    · rw [valid_zero_iff]
      have hne : id.toNat ≠ 0 := by
        intro e
        rw [e, hz] at hu
        exact absurd hu (by simp)
      exact ⟨z, by rw [List.getElem?_set_ne hne, hz]⟩
  · have hsz : m.seg.length < cfg.maxSegments := hsize
    refine ⟨⟨?_, ?_, ?_⟩, ⟨List.nodup_nil, ?_, ?_⟩, ?_⟩
    · simp only [List.length_append, List.length_singleton]
      omega
    · simpa [Memory.usedWords, Slot.wordCount] using hcap
    · intro sg hsg
      simp only [List.mem_append, List.mem_singleton] at hsg
      rcases hsg with hm | he
      · exact h.limits.each sg hm
      · cases he; exact hlen
    · intro id' hid'; simp at hid'
    · intro n hn hun
      simp only [List.length_append, List.length_singleton] at hn
      by_cases he : n = m.seg.length
      · subst he; simp at hun
      · rw [List.getElem?_append_left (by omega)] at hun
        have := h.pool.pooled n (by omega) hun
        rwa [hp] at this
    · rw [valid_zero_iff]
      exact ⟨z, by rw [List.getElem?_append_left hz0, hz]⟩

theorem segFree_tableOk {cfg : Config} {m m' : Memory} {id : Word} (h : TableOk cfg m)
    (hf : m.segFree id = .ok m') : TableOk cfg m' := by
  obtain ⟨h0, ⟨sg, hl⟩, rfl⟩ := segFree_ok_iff.mp hf
  have hs := lookup_eq_some.mp hl
  have hidlt := lookup_lt hl
  refine ⟨withinLimits_set h.limits hs ?_ ?_, ⟨?_, ?_, ?_⟩, ?_⟩
  · have := h.limits.words
    simp only [Slot.wordCount]
    omega
  · intro sg' he; cases he
  · refine List.nodup_cons.mpr ⟨fun hm => ?_, h.pool.nodup⟩
    have := h.pool.unmapped id hm
    rw [hs] at this
    exact absurd this (by simp)
  · intro id' hid'
    rcases List.mem_cons.mp hid' with rfl | hm
    · simp [List.getElem?_set_self hidlt]
    · have hu := h.pool.unmapped id' hm
      by_cases he : id.toNat = id'.toNat
      · simp only [← he, List.getElem?_set_self hidlt]
      · simpa [List.getElem?_set_ne he] using hu
  · intro n hn hun
    simp only [List.length_set] at hn
    by_cases he : id.toNat = n
    · subst he
      simp
    · rw [List.getElem?_set_ne he] at hun
      exact List.mem_cons_of_mem _ (h.pool.pooled n hn hun)
  · obtain ⟨z, hz⟩ := valid_zero_iff.mp h.zero
    rw [valid_zero_iff]
    have hne : id.toNat ≠ 0 := fun e => h0 (BitVec.eq_of_toNat_eq (by simpa using e))
    exact ⟨z, by rw [List.getElem?_set_ne hne, hz]⟩

theorem segDup_tableOk {cfg : Config} {m m' : Memory} {src : Word} (h : TableOk cfg m)
    (hd : m.segDup cfg src = .ok m') : TableOk cfg m' := by
  obtain ⟨sg, hl, ⟨_, rfl⟩ | ⟨h0, hr, rfl⟩⟩ := segDup_ok_iff.mp hd
  · exact h
  · obtain ⟨z, hz⟩ := valid_zero_iff.mp h.zero
    have hz0 : 0 < m.seg.length := (List.getElem?_eq_some_iff.mp hz).1
    rw [roomForProgram_iff, segLen_of_some (lookup_eq_some.mpr hz)] at hr
    have hmem : Slot.mapped sg ∈ m.seg := List.mem_of_getElem? (lookup_eq_some.mp hl)
    refine ⟨withinLimits_set h.limits hz hr ?_, poolExact_set_mapped h.pool hz, ?_⟩
    · rintro sg' he
      cases he
      exact h.limits.each sg hmem
    · rw [valid_zero_iff]
      exact ⟨sg, by simp [hz0]⟩

theorem segLoadInitial_tableOk {cfg : Config} {words : List Word} {m : Memory}
    (h : Memory.segLoadInitial cfg words = .ok m) : TableOk cfg m := by
  obtain ⟨h1, h2, rfl⟩ := segLoadInitial_ok_iff.mp h
  refine ⟨⟨?_, ?_, ?_⟩, ⟨List.nodup_nil, ?_, ?_⟩, ?_⟩
  · simp
  · simpa [Memory.usedWords, Slot.wordCount] using h2
  · intro sg hsg
    simp only [List.mem_singleton] at hsg
    cases hsg
    exact h1
  · intro id hid; simp at hid
  · intro n hn hun
    simp only [List.length_singleton, Nat.lt_one_iff] at hn
    subst hn
    simp at hun
  · rw [valid_zero_iff]
    exact ⟨Segment.ofWords words, rfl⟩

/-- Every transaction keeps the limits, the exact pool and segment 0. -/
theorem after_tableOk {cfg : Config} {m : Memory} (q : Request) (h : TableOk cfg m) :
    TableOk cfg (m.after cfg q) := by
  cases q with
  | fetch off => simpa using h
  | read id off => simpa using h
  | releaseAll => exact h
  | write id off v =>
    rw [after_write]
    split
    · exact segWrite_tableOk h ‹_›
    · exact h
  | alloc len =>
    rw [after_alloc]
    split
    · exact segAlloc_tableOk h ‹_›
    · exact h
  | free id =>
    rw [after_free]
    split
    · exact segFree_tableOk h ‹_›
    · exact h
  | dup src =>
    rw [after_dup]
    split
    · exact segDup_tableOk h ‹_›
    · exact h
  | loadInitial words =>
    rw [after_loadInitial]
    split
    · exact segLoadInitial_tableOk ‹_›
    · exact h

/-! ### The size of the table and of live segments (R51, R54) -/

/-- No execute transaction shrinks the table. -/
theorem after_size {cfg : Config} {m : Memory} (q : Request) (hq : q.issuer ≠ .hostLoader) :
    m.seg.length ≤ (m.after cfg q).seg.length := by
  cases q with
  | fetch off => simp
  | read id off => simp
  | releaseAll => exact Nat.le_refl _
  | write id off v =>
    rw [after_write]
    split
    · obtain ⟨sg, _, _, rfl⟩ := segWrite_ok_iff.mp ‹_›
      simp
    · exact Nat.le_refl _
  | alloc len =>
    rw [after_alloc]
    split
    · rename_i r hr
      obtain ⟨id, m'⟩ := r
      obtain ⟨_, ⟨rest, _, rfl⟩ | ⟨_, _, _, rfl⟩⟩ := segAlloc_ok_iff.mp hr
      · simp
      · simp
    · exact Nat.le_refl _
  | free id =>
    rw [after_free]
    split
    · obtain ⟨_, _, rfl⟩ := segFree_ok_iff.mp ‹_›
      simp
    · exact Nat.le_refl _
  | dup src =>
    rw [after_dup]
    split
    · obtain ⟨sg, _, ⟨_, rfl⟩ | ⟨_, _, rfl⟩⟩ := segDup_ok_iff.mp ‹_›
      · exact Nat.le_refl _
      · simp
    · exact Nat.le_refl _
  | loadInitial words => exact absurd rfl hq

end Sys2Proof.Machine
end

