-- ==== Sys2Proof/Laws/PerInstr.lean ====
section
/-! SUPPORT. Statements about every instruction as syntax, one lemma per constructor. -/

namespace Sys2Proof.Laws.OpcodeInWord

theorem opcode_lt (i : Instr) : i.opcode < 14 := by
  cases i <;> exact Nat.lt_of_sub_pos (Nat.succ_pos _)

/-- The canonical word of a well-formed instruction carries the instruction's opcode in bits 31:28, and the
opcode is one of the 14 valid ones (R76, R77, R81). -/
def Statement (i : Instr) : Prop :=
  i.wellFormed = true → opcodeField (encode i) = i.opcode ∧ i.opcode < 14

theorem cmov (a b c : Reg) : Statement (.cmov a b c) :=
  fun _ => ⟨(enc3_fields (by decide) a b c).1, opcode_lt _⟩
theorem sload (a b c : Reg) : Statement (.sload a b c) :=
  fun _ => ⟨(enc3_fields (by decide) a b c).1, opcode_lt _⟩
theorem sstore (a b c : Reg) : Statement (.sstore a b c) :=
  fun _ => ⟨(enc3_fields (by decide) a b c).1, opcode_lt _⟩
theorem add (a b c : Reg) : Statement (.add a b c) :=
  fun _ => ⟨(enc3_fields (by decide) a b c).1, opcode_lt _⟩
theorem mul (a b c : Reg) : Statement (.mul a b c) :=
  fun _ => ⟨(enc3_fields (by decide) a b c).1, opcode_lt _⟩
theorem div (a b c : Reg) : Statement (.div a b c) :=
  fun _ => ⟨(enc3_fields (by decide) a b c).1, opcode_lt _⟩
theorem nand (a b c : Reg) : Statement (.nand a b c) :=
  fun _ => ⟨(enc3_fields (by decide) a b c).1, opcode_lt _⟩
theorem halt : Statement .halt :=
  fun _ => ⟨(enc3_fields (by decide) 0 0 0).1, opcode_lt _⟩
theorem alloc (b c : Reg) : Statement (.alloc b c) :=
  fun _ => ⟨(enc3_fields (by decide) 0 b c).1, opcode_lt _⟩
theorem free (c : Reg) : Statement (.free c) :=
  fun _ => ⟨(enc3_fields (by decide) 0 0 c).1, opcode_lt _⟩
theorem output (c : Reg) : Statement (.output c) :=
  fun _ => ⟨(enc3_fields (by decide) 0 0 c).1, opcode_lt _⟩
theorem input (c : Reg) : Statement (.input c) :=
  fun _ => ⟨(enc3_fields (by decide) 0 0 c).1, opcode_lt _⟩
theorem loadp (b c : Reg) : Statement (.loadp b c) :=
  fun _ => ⟨(enc3_fields (by decide) 0 b c).1, opcode_lt _⟩
theorem loadi (a : Reg) (imm : Nat) : Statement (.loadi a imm) :=
  fun h => ⟨(encLI_fields a (loadi_wellFormed h)).1, opcode_lt _⟩

end Sys2Proof.Laws.OpcodeInWord
end

