-- ==== Sys2Proof/Tests/Slice0.lean ====
section
/-! SUPPORT. Tests on fixed values, and the witnesses of the statements' hypotheses. Expected values come
from spec/95_test_vectors.md (the vector is named) or from the rule that is named; none is the model's own
answer. -/

namespace Sys2Proof.Tests

open Sys2Proof.Machine

/-! ### Helpers -/

/-- What a step answers, seen through `f`; nothing where it stops. -/
def seen {α : Type} (o : StepOutcome) (f : State → α) : Option α :=
  match o with
  | .next t => some (f t)
  | .fault _ => none
  | .refused _ => none

/-- A RUNNING machine at pc 0 with the given program, registers, further slots and pool. -/
def machine (program : List Word) (x : Vector Word 8) (slots : List Slot := []) (pool : List Word := [])
    (inp : List Byte := []) (cfg : Config := Config.largest) : State :=
  { State.resetWith cfg inp with
    run := .running, x := x,
    mem := { seg := .mapped (Segment.ofWords program) :: slots, pool := pool } }

/-- Small limits, so that the boundaries of R55 can be met. -/
def tiny : Config where
  maxSegments := 2
  maxSegWords := 4
  memCapacityWords := 6
  faultExitStatus := 3
  maxSegments_le := by decide
  maxSegWords_le := by decide
  faultExitStatus_pos := by decide

/-- A live segment of the given words. -/
def words (ws : List Word) : Slot := .mapped (Segment.ofWords ws)

/-- The run state and the fault report of an answer. -/
def report (s : State) : RunState × Option FaultKind × Word := (s.run, s.fkind, s.fpc)

/-! ### WellFormed refuses what the encoding cannot hold (R75, R81) -/

theorem test_illFormed_loadi_is_refused : (Instr.loadi 0 0x2000000).wellFormed = false := by decide
theorem test_largest_immediate_is_wellFormed : (Instr.loadi 7 0x1FFFFFF).wellFormed = true := by decide
theorem test_illFormed_loadi_does_not_encode :
    codecEncode (.loadi 0 0x2000000) = .error .overflow := by decide

/-! ### Decoding: every constructor, its word written out from R72, R74 and R76 -/

theorem test_decode_cmov : decode 0b0000_0000000000000000000_001_010_011 = .ok (.cmov 1 2 3) := by decide
theorem test_decode_cmov_ignores_27_9 : decode 0x0FFFFE53 = .ok (.cmov 1 2 3) := by decide
theorem test_decode_cmov_a7 : decode 0x000001C0 = .ok (.cmov 7 0 0) := by decide
theorem test_decode_sload : decode 0b0001_0000000000000000000_100_001_010 = .ok (.sload 4 1 2) := by decide
theorem test_decode_sstore : decode 0b0010_0000000000000000000_001_010_011 = .ok (.sstore 1 2 3) := by decide
theorem test_decode_add : decode 0b0011_0000000000000000000_110_000_000 = .ok (.add 6 0 0) := by decide
theorem test_decode_mul : decode 0b0100_0000000000000000000_001_001_010 = .ok (.mul 1 1 2) := by decide
theorem test_decode_div : decode 0b0101_0000000000000000000_011_010_011 = .ok (.div 3 2 3) := by decide
theorem test_decode_nand : decode 0b0110_0000000000000000000_111_000_000 = .ok (.nand 7 0 0) := by decide
theorem test_decode_halt : decode 0x7FFFFFFF = .ok .halt := by decide
theorem test_decode_alloc : decode 0b1000_0000000000000000000_000_011_010 = .ok (.alloc 3 2) := by decide
theorem test_decode_free : decode 0b1001_0000000000000000000_000_000_011 = .ok (.free 3) := by decide
theorem test_decode_output : decode 0b1010_0000000000000000000_000_000_011 = .ok (.output 3) := by decide
theorem test_decode_input : decode 0b1011_0000000000000000000_000_000_001 = .ok (.input 1) := by decide
theorem test_decode_loadp : decode 0b1100_0000000000000000000_000_000_100 = .ok (.loadp 0 4) := by decide
theorem test_decode_loadi : decode 0b1101_010_1000000000000000000000000 = .ok (.loadi 2 0x1000000) := by
  decide
theorem test_decode_loadi_largest : decode 0xDFFFFFFF = .ok (.loadi 7 0x1FFFFFF) := by decide
theorem test_decode_14 : decode 0xE0000000 = .error .unknownOpcode := by decide
theorem test_decode_15 : decode 0xFFFFFFFF = .error .unknownOpcode := by decide

/-- Encoding gives the words of P1 and P3 (95_test_vectors.md part 3). -/
theorem test_encode_words :
    encode (.loadi 1 48) = 0xD2000030 ∧ encode (.add 3 1 2) = 0x300000CA ∧ encode .halt = 0x70000000 ∧
    encode (.loadp 0 4) = 0xC0000004 ∧ encode (.sstore 0 3 1) = 0x20000019 := by decide

/-- The host's two definitions evaluate, and a program can start from reset with them. -/
theorem test_decodeTableWord : decodeTableWord 32 0xD2000030 = some (.loadi 1 48) := by decide
theorem test_decodeTableWord_invalid : decodeTableWord 32 0xE0000000 = none := by decide
theorem test_withFetchWord_runs_first :
    seen (step (State.reset.withFetchWord 32 0xD2000030)) (fun t => (t.x[1], t.pc, t.run)) =
      some (0x30, 1, .running) := by decide

/-! ### The codec (K1 to K11) -/

theorem test_codec_get :
    Codec.getUnsigned 0xD2000030 4 28 = .ok 13 ∧ Codec.getUnsigned 0xD2000030 3 25 = .ok 1 ∧
    Codec.getUnsigned 0xD2000030 25 0 = .ok 48 ∧ Codec.getSigned 0xF0 4 4 = .ok (-1) ∧
    Codec.getSigned 0x70 4 4 = .ok 7 ∧ Codec.getUnsigned 0xD2000030 64 0 = .ok 0xD2000030 := by decide
theorem test_codec_new :
    Codec.newUnsigned 0 4 28 13 = .ok 0xD0000000 ∧ Codec.newUnsigned 0 3 6 8 = .error .overflow ∧
    Codec.newSigned 0 4 0 (-1) = .ok 0xF ∧ Codec.newSigned 0 4 0 8 = .error .overflow ∧
    Codec.newSigned 0 4 0 (-8) = .ok 8 ∧ Codec.newUnsigned 0xABCD 0 5 7 = .ok 0xABCD := by decide
theorem test_codec_contract :
    Codec.getUnsigned 0 65 0 = .error .outsideContract ∧
    Codec.getSigned 0 1 64 = .error .outsideContract := by decide

/-! ### One step of each instruction -/

/-- V1, V3, V4. -/
theorem test_cmov_moves :
    seen (step (machine [0x00000053] #v[0, 5, 9, 1, 0, 0, 0, 0])) (·.x[1]) = some 9 ∧
    seen (step (machine [0x00000053] #v[0, 5, 9, 0x80000000, 0, 0, 0, 0])) (·.x[1]) = some 9 ∧
    seen (step (machine [0x00000051] #v[0, 5, 9, 0, 0, 0, 0, 0])) (·.x[1]) = some 9 := by decide
/-- V2, V5, V6. -/
theorem test_cmov_keeps :
    seen (step (machine [0x00000053] #v[0, 5, 9, 0, 0, 0, 0, 0])) (·.x[1]) = some 5 ∧
    seen (step (machine [0x00000051] #v[0, 0, 9, 0, 0, 0, 0, 0])) (·.x[1]) = some 0 ∧
    seen (step (machine [0x00000000] #v[4, 0, 0, 0, 0, 0, 0, 0])) (fun t => (t.x[0], t.pc)) =
      some (4, 1) := by decide
/-- V7, V8, V9. -/
theorem test_loadi :
    seen (step (machine [0xD2000030] (Vector.replicate 8 0))) (·.x[1]) = some 0x30 ∧
    seen (step (machine [0xDFFFFFFF] (Vector.replicate 8 0))) (·.x[7]) = some 0x1FFFFFF ∧
    seen (step (machine [0xD0000000] (Vector.replicate 8 0xFFFFFFFF))) (fun t => (t.x[0], t.x[1])) =
      some (0, 0xFFFFFFFF) := by decide
/-- V10, V11, V12, V13. -/
theorem test_add :
    seen (step (machine [0x30000053] #v[0, 0, 0xFFFFFFFF, 1, 0, 0, 0, 0])) (·.x[1]) = some 0 ∧
    seen (step (machine [0x30000053] #v[0, 0, 0x7FFFFFFF, 1, 0, 0, 0, 0])) (·.x[1]) = some 0x80000000 ∧
    seen (step (machine [0x30000053] #v[0, 0, 0xFFFFFFFF, 0xFFFFFFFF, 0, 0, 0, 0])) (·.x[1]) =
      some 0xFFFFFFFE ∧
    seen (step (machine [0x30000049] #v[0, 0x80000001, 0, 0, 0, 0, 0, 0])) (·.x[1]) = some 2 := by decide
/-- V14, V15, V16. -/
theorem test_mul :
    seen (step (machine [0x40000053] #v[0, 7, 0x10000, 0x10000, 0, 0, 0, 0])) (·.x[1]) = some 0 ∧
    seen (step (machine [0x40000053] #v[0, 7, 0xFFFFFFFF, 0xFFFFFFFF, 0, 0, 0, 0])) (·.x[1]) = some 1 ∧
    seen (step (machine [0x40000053] #v[0, 7, 0xFFFFFFFF, 2, 0, 0, 0, 0])) (·.x[1]) =
      some 0xFFFFFFFE := by decide
/-- V18, V19, V21, V25. -/
theorem test_div :
    seen (step (machine [0x50000053] #v[0, 0, 7, 2, 0, 0, 0, 0])) (·.x[1]) = some 3 ∧
    seen (step (machine [0x50000053] #v[0, 9, 2, 7, 0, 0, 0, 0])) (·.x[1]) = some 0 ∧
    seen (step (machine [0x50000053] #v[0, 0, 0x80000000, 2, 0, 0, 0, 0])) (·.x[1]) = some 0x40000000 ∧
    seen (step (machine [0x500000D3] #v[0, 0, 9, 3, 0, 0, 0, 0])) (·.x[3]) = some 3 := by decide
/-- V23: x1 is as before. -/
theorem test_div_by_zero :
    seen (step (machine [0x50000053] #v[0, 8, 5, 0, 0, 0, 0, 0])) (fun t => (report t, t.x[1])) =
      some ((.faulted, some .divisionByZero, 0), 8) := by decide
/-- V26, V27, V28, V29. -/
theorem test_nand :
    seen (step (machine [0x60000053] (Vector.replicate 8 0))) (·.x[1]) = some 0xFFFFFFFF ∧
    seen (step (machine [0x60000053] (Vector.replicate 8 0xFFFFFFFF))) (·.x[1]) = some 0 ∧
    seen (step (machine [0x60000053] #v[0, 0, 0xFFFF0000, 0x0F0F0F0F, 0, 0, 0, 0])) (·.x[1]) =
      some 0xF0F0FFFF ∧
    seen (step (machine [0x60000052] #v[0, 0, 0xFFFF, 0, 0, 0, 0, 0])) (·.x[1]) = some 0xFFFF0000 := by
  decide
/-- V30, and V38 (a store to an empty segment). -/
theorem test_sstore :
    seen (step (machine [0x20000053] #v[0, 1, 2, 0xDEADBEEF, 0, 0, 0, 0] [words [0, 0, 0]]))
        (fun t => (t.mem.seg[1]?, report t)) =
      some (some (words [0, 0, 0xDEADBEEF]), .running, none, 0) ∧
    seen (step (machine [0x20000053] #v[0, 1, 0, 5, 0, 0, 0, 0] [words []])) report =
      some (.faulted, some .outOfBounds, 0) := by decide
/-- V34. -/
theorem test_sstore_invalid :
    seen (step (machine [0x20000053] #v[0, 0xFFFFFFFF, 0, 5, 0, 0, 0, 0])) report =
      some (.faulted, some .invalidSegment, 0) := by decide
/-- V31, V35. -/
theorem test_sload :
    seen (step (machine [0x1000010A] #v[0, 1, 2, 0, 0, 0, 0, 0] [words [0, 0, 0xDEADBEEF]])) (·.x[4]) =
      some 0xDEADBEEF ∧
    seen (step (machine [0x10000100] (Vector.replicate 8 0))) (·.x[4]) = some 0x10000100 := by decide
/-- V32, V33, V37. -/
theorem test_sload_faults :
    seen (step (machine [0x1000010A] #v[0, 1, 3, 0, 6, 0, 0, 0] [words [0, 0, 0]]))
        (fun t => (report t, t.x[4])) = some ((.faulted, some .outOfBounds, 0), 6) ∧
    seen (step (machine [0x1000010A] #v[0, 2, 0, 0, 0, 0, 0, 0] [words [0, 0, 0]])) report =
      some (.faulted, some .invalidSegment, 0) ∧
    seen (step (machine [0x1000010A] #v[0, 1, 0, 0, 0, 0, 0, 0] [.unmapped] [1])) report =
      some (.faulted, some .invalidSegment, 0) := by decide
/-- V40, V42, V44 (a segment of length 0). -/
theorem test_alloc :
    seen (step (machine [0x8000001A] #v[0, 0, 10, 0, 0, 0, 0, 0]))
        (fun t => (t.x[3], t.mem.seg[1]?, t.mem.size)) =
      some (1, some (words (List.replicate 10 0)), 2) ∧
    seen (step (machine [0x8000001A] #v[0, 0, 5, 0, 0, 0, 0, 0] [.unmapped, words [7], .unmapped] [3, 1]))
        (fun t => (t.x[3], t.mem.pool, t.mem.size)) = some (3, [1], 4) ∧
    seen (step (machine [0x80000010] (Vector.replicate 8 0))) (fun t => (t.x[2], t.mem.seg[1]?)) =
      some (1, some (words [])) := by decide
/-- V49: MAX_SEGMENTS = size and the pool is empty. -/
theorem test_alloc_exhausted :
    seen (step (machine [0x8000001A] (Vector.replicate 8 0) [words []] [] [] tiny))
        (fun t => (report t, t.mem.size)) = some ((.faulted, some .resourceExhausted, 0), 2) := by decide
/-- V45. -/
theorem test_free :
    seen (step (machine [0x90000003] #v[0, 0, 0, 1, 0, 0, 0, 0] [words [4]]))
      (fun t => (t.mem.seg[1]?, t.mem.pool, t.mem.size, t.run)) =
      some (some .unmapped, [1], 2, .running) := by decide
/-- V46, V47, V48. -/
theorem test_free_faults :
    seen (step (machine [0x90000003] #v[0, 0, 0, 1, 0, 0, 0, 0] [.unmapped] [1])) report =
      some (.faulted, some .invalidSegment, 0) ∧
    seen (step (machine [0x90000003] (Vector.replicate 8 0))) report =
      some (.faulted, some .invalidSegment, 0) ∧
    seen (step (machine [0x90000003] #v[0, 0, 0, 7, 0, 0, 0, 0] [words [4]])) report =
      some (.faulted, some .invalidSegment, 0) := by decide
/-- V50. -/
theorem test_halt :
    seen (step (machine [0x70000000] #v[1, 2, 3, 4, 5, 6, 7, 8]))
      (fun t => (t.run, t.exitStatus, t.x)) = some (.halted, some 0, #v[1, 2, 3, 4, 5, 6, 7, 8]) := by
  decide
/-- V51, V52, V55. -/
theorem test_loadp :
    seen (step (machine [0xC0000004] #v[0, 0, 0, 0, 11, 0, 0, 0])) (fun t => (t.pc, t.mem.seg)) =
      some (11, [words [0xC0000004]]) ∧
    seen (step (machine [0xC0000010] #v[0, 0, 1, 0, 0, 0, 0, 0] [words [0, 0x70000000]]))
        (fun t => (t.pc, t.mem.seg)) = some (0, [words [0, 0x70000000], words [0, 0x70000000]]) ∧
    seen (step (machine [0xC0000012] #v[0, 0, 1, 0, 0, 0, 0, 0] [words [1, 2, 3]]))
        (fun t => (t.pc, t.mem.seg[0]?)) = some (1, some (words [1, 2, 3])) := by decide
/-- V53. -/
theorem test_loadp_invalid :
    seen (step (machine [0xC0000010] #v[0, 0, 5, 0, 0, 0, 0, 0] [words [0]]))
      (fun t => (report t, t.mem.seg[0]?)) =
      some ((.faulted, some .invalidSegment, 0), some (words [0xC0000010])) := by decide
/-- V60, V62. -/
theorem test_output :
    seen (step (machine [0xA0000003] #v[0, 0, 0, 54, 0, 0, 0, 0])) (·.out) = some [54] ∧
    seen (step (machine [0xA0000003] #v[0, 0, 0, 255, 0, 0, 0, 0])) (·.out) = some [255] := by decide
/-- V63, V64. -/
theorem test_output_invalid :
    seen (step (machine [0xA0000003] #v[0, 0, 0, 256, 0, 0, 0, 0])) (fun t => (report t, t.out)) =
      some ((.faulted, some .invalidOutput, 0), []) ∧
    seen (step (machine [0xA0000003] (Vector.replicate 8 0xFFFFFFFF))) report =
      some (.faulted, some .invalidOutput, 0) := by decide
/-- V65, V66, V69. -/
theorem test_input :
    seen (step (machine [0xB0000001] (Vector.replicate 8 0) [] [] [65, 255]))
        (fun t => (t.x[1], t.inp)) = some (0x41, [255]) ∧
    seen (step (machine [0xB0000001] (Vector.replicate 8 0) [] [] [255])) (fun t => (t.x[1], t.inp)) =
      some (0xFF, []) ∧
    seen (step (machine [0xB0000001] (Vector.replicate 8 9) [] [] [0])) (·.x[1]) = some 0 := by decide
/-- V67, V68. -/
theorem test_input_eof :
    seen (step (machine [0xB0000001] (Vector.replicate 8 0))) (fun t => (t.x[1], t.inp)) =
      some (0xFFFFFFFF, []) := by decide

/-! ### Fetch and load -/

/-- V54's second step: pc = 100 in a segment of length 2. -/
theorem test_fetch_out_of_bounds :
    seen (step { machine [0, 0] (Vector.replicate 8 0) with pc := 100 }) report =
      some (.faulted, some .outOfBounds, 100) := by decide
/-- L5. -/
theorem test_unknown_opcode :
    seen (step (machine [0xE0000000] (Vector.replicate 8 0))) report =
      some (.faulted, some .unknownOpcode, 0) := by decide
/-- L1. -/
theorem test_image_is_bigEndian :
    (imageWords [0xD2, 0, 0, 0x30, 0xD4, 0, 0, 6]).toOption = some [0xD2000030, 0xD4000006] := by decide
/-- L2. -/
theorem test_malformed_image :
    seen (step { State.reset with image := some [0, 0, 0, 0, 0] }) report =
      some (.faulted, some .malformedProgram, 0) := by decide
/-- The first half of L3: an empty image starts the run. -/
theorem test_empty_image :
    seen (step { State.reset with image := some [] }) (fun t => (t.run, t.pc, t.mem.seg)) =
      some (.running, 0, [words []]) := by decide
/-- R204: a second image is refused. -/
theorem test_second_image_is_refused :
    hostOfferImage [0] { State.reset with image := some [] } = .refused .loadInitialRefused := rfl

/-! ### The assembler (R89, R90, and words of P3) -/

theorem test_assemble :
    (Assembler.assemble "loop: add r3, r2, r1 ; r3\nloadi r6, loop\n\njmp r4\nnot r1, r2").toOption =
      some [0x300000D1, 0xDC000000, 0xC0000004, 0x60000052] := by decide
theorem test_assemble_overflow :
    Assembler.assemble "loadi r0, 0x2000000" = .error .overflow := by decide

/-! ### Witnesses: for each statement with hypotheses, operands and a state that meet them together, at the
boundary of each clause's range -/

theorem witness_DecodeReadsTheStandardLayout :
    standardInstr (wordBits 0x0FFFFE53 31 28) (registerBits 0x0FFFFE53 6) (registerBits 0x0FFFFE53 3)
      (registerBits 0x0FFFFE53 0) = some (.cmov 1 2 3) ∧
    standardInstr (wordBits 0xC0000004 31 28) (registerBits 0xC0000004 6) (registerBits 0xC0000004 3)
      (registerBits 0xC0000004 0) = some (.loadp 0 4) := by decide

theorem witness_LoadImmediateLayoutUsesEveryBit :
    wordBits 0xD0000000 31 28 = 13 ∧ wordBits 0xDFFFFFFF 31 28 = 13 ∧
    decode 0xDFFFFFFF = .ok (.loadi 7 0x1FFFFFF) ∧ decode 0xD0000000 = decode 0xD0000000 := by decide

theorem witness_OnlyOpcodes14And15AreInvalid :
    (machine [0xE0000000] (Vector.replicate 8 0)).run = .running ∧
    (machine [0xE0000000] (Vector.replicate 8 0)).mem.segRead 0 0 = .ok 0xE0000000 ∧
    14 ≤ wordBits 0xE0000000 31 28 := by decide

theorem witness_DecodeOfEncodeIsTheInstruction :
    (Instr.loadi 7 0x1FFFFFF).wellFormed = true ∧ (Instr.cmov 7 7 7).wellFormed = true := by decide

theorem witness_DecodedWordIsCanonicalUpToIgnoredBits :
    decode 0x7FFFFFFF = .ok .halt ∧
    (0x70000000 : Word) &&& Instr.halt.usedBits = 0x7FFFFFFF &&& Instr.halt.usedBits := by decide

theorem witness_CodecReadsBackWhatItInserts :
    Codec.inContract 64 0 = true ∧ Codec.fitsUnsigned 0xFFFFFFFFFFFFFFFF 64 = true ∧
    Codec.inContract 0 64 = true ∧ Codec.fitsUnsigned 0 0 = true := by decide

theorem witness_CodecInsertsOnlyIntoItsField :
    Codec.newUnsigned 0 4 60 15 = .ok 0xF000000000000000 ∧
    Codec.newSigned 0 4 60 (-8) = .ok 0x8000000000000000 ∧
    (Codec.inContract 4 60 = true ∧ 0 < 4 ∧ Codec.fitsSigned (-8) 4 = true) ∧
    (Codec.inContract 1 63 = true ∧ 0 < 1 ∧ Codec.fitsUnsigned 2 1 = false) ∧
    (Codec.inContract 1 63 = true ∧ 0 < 1 ∧ Codec.fitsSigned 1 1 = false) ∧
    Codec.inContract 0 64 = true ∧ Codec.inContract 64 1 = false := by decide

theorem witness_CodecEncoderAgreesWithTheFormula :
    (Instr.loadi 0 0x1FFFFFF).wellFormed = true ∧ (Instr.loadi 0 0x2000000).wellFormed = false := by decide

/-- A state with segment 0 mapped and every register 0. -/
theorem witness_PseudoInstructionsAreExact :
    (machine [0xC0000000] (Vector.replicate 8 0)).x[0] = 0 ∧
    ¬ NotMapped (machine [0xC0000000] (Vector.replicate 8 0)).mem 0 :=
  ⟨by decide, fun h => h (Segment.ofWords [0xC0000000]) rfl⟩

theorem witness_StepRunsTheDecodedInstruction :
    (machine [0x70000000] (Vector.replicate 8 0)).run = .running ∧
    (machine [0x70000000] (Vector.replicate 8 0)).mem.segRead 0 0 = .ok 0x70000000 ∧
    decode 0x70000000 = .ok .halt := by decide

/-- pc = 1 is the length of segment 0. -/
theorem witness_FetchPastSegment0IsOutOfBounds :
    let s := { machine [0x70000000] (Vector.replicate 8 0) with pc := 1 }
    s.run = .running ∧ s.mem.seg[0]? = some (.mapped (Segment.ofWords [0x70000000])) ∧
    (Segment.ofWords [0x70000000]).len ≤ s.pc.toNat := by decide

theorem witness_RunStateTransitionsAreTheListedOnes :
    (∃ t, step { State.reset with image := some [] } = .next t) ∧
    ∃ t, step (machine [0x70000000] (Vector.replicate 8 0)) = .next t :=
  ⟨⟨_, rfl⟩, ⟨_, rfl⟩⟩

theorem witness_EndedRunsTakeNoStep :
    ({ State.reset with run := .halted } : State).ended = true ∧
    ({ State.reset with run := .faulted } : State).ended = true ∧
    (∀ s, Reaches s s) ∧ State.reset.run = .loading ∧ State.reset.image = none :=
  ⟨by decide, by decide, Reaches.refl, by decide, by decide⟩

/-- load-program, and another instruction. -/
theorem witness_OnlyLoadProgramRedirectsPc :
    (machine [0xC0000000] (Vector.replicate 8 0)).mem.segRead 0 0 = .ok 0xC0000000 ∧
    decode 0xC0000000 = .ok (.loadp 0 0) ∧
    (∃ t, step (machine [0xC0000000] (Vector.replicate 8 0)) = .next t ∧ t.run = .running) ∧
    (machine [0x30000000] (Vector.replicate 8 0)).mem.segRead 0 0 = .ok 0x30000000 ∧
    decode 0x30000000 = .ok (.add 0 0 0) ∧
    ∃ t, step (machine [0x30000000] (Vector.replicate 8 0)) = .next t ∧ t.run = .running :=
  ⟨by decide, by decide, ⟨_, rfl, rfl⟩, by decide, by decide, ⟨_, rfl, rfl⟩⟩

theorem witness_FaultingStepIsPrecise :
    (machine [0x90000000] (Vector.replicate 8 0)).run = .running ∧
    ∃ t, step (machine [0x90000000] (Vector.replicate 8 0)) = .next t ∧ t.run = .faulted :=
  ⟨by decide, ⟨_, rfl, rfl⟩⟩

/-- Two states that differ in x[7], which `add 1 2 3` does not read. -/
theorem witness_RegistersNotListedAreNotUsed :
    let s := machine [] #v[0, 0, 2, 3, 0, 0, 0, 4]
    let s' := machine [] #v[0, 0, 2, 3, 0, 0, 0, 5]
    s' = { s with x := s'.x } ∧ ∀ r ∈ (Instr.add 1 2 3).reads, s'.x[r] = s.x[r] :=
  ⟨rfl, by decide⟩

theorem witness_CmovMovesWhenTheConditionIsNonZero :
    (machine [] #v[0, 0, 0, 0x80000000, 0, 0, 0, 0]).x[3] ≠ 0 ∧
    (machine [] #v[0, 0, 0, 0, 0, 0, 0, 0]).x[3] = 0 := by decide

theorem witness_LoadiWritesTheZeroExtendedImmediate :
    wordBits 0xD0000000 31 28 = 13 ∧ wordBits 0xDFFFFFFF 31 28 = 13 := by decide

theorem witness_DivWritesTheUnsignedQuotient :
    (machine [] #v[0, 0, 9, 1, 0, 0, 0, 0]).x[3] ≠ 0 := by decide

/-- The last word of a segment. -/
theorem witness_SloadReadsTheAddressedWord :
    let s := machine [] #v[0, 1, 2, 0, 0, 0, 0, 0] [words [7, 8, 9]]
    s.mem.seg[s.x[1].toNat]? = some (.mapped (Segment.ofWords [7, 8, 9])) ∧
    (Segment.ofWords [7, 8, 9]).words[s.x[2].toNat]? = some 9 := by decide

theorem witness_SstoreWritesTheAddressedWord :
    let s := machine [] #v[0, 1, 2, 0, 0, 0, 0, 0] [words [7, 8, 9]]
    s.mem.wf = true ∧ s.mem.seg[s.x[1].toNat]? = some (.mapped (Segment.ofWords [7, 8, 9])) ∧
    s.x[2].toNat < (Segment.ofWords [7, 8, 9]).len := by decide

/-- A state of the invariant with room for one more slot, at every limit of `tiny` after `alloc r3, r2`. -/
def roomy : State := machine [0x8000001A, 0] #v[0, 0, 4, 0, 0, 0, 0, 0] [] [] [] tiny

/-- A state of the invariant with a full table whose slot 1 is in the pool. -/
def pooled : State := machine [0x8000001A, 0] #v[0, 0, 4, 0, 0, 0, 0, 0] [.unmapped] [1] [] tiny

theorem roomy_limits : WithinLimits roomy.cfg roomy.mem where
  slots := by decide
  words := by decide
  each := fun sg h => by
    have : sg = Segment.ofWords [0x8000001A, 0] := by simpa [roomy, machine] using h
    rw [this]
    decide

theorem roomy_pool : PoolExact roomy.mem where
  nodup := by simp [roomy, machine]
  unmapped := by simp [roomy, machine]
  pooled := fun n hn => by
    have : n < 1 := hn
    interval_cases n
    simp [roomy, machine]

theorem roomy_inv : roomy.Inv where
  canonical := by decide
  limits := roomy_limits
  pool := roomy_pool
  segment0 := fun _ => by decide
  atReset := fun h => absurd h (by decide)
  answered := fun _ => by decide
  kind := by decide
  faultPc := fun _ => by decide

theorem pooled_limits : WithinLimits pooled.cfg pooled.mem where
  slots := by decide
  words := by decide
  each := fun sg h => by
    have : sg = Segment.ofWords [0x8000001A, 0] := by simpa [pooled, machine] using h
    rw [this]
    decide

theorem pooled_pool : PoolExact pooled.mem where
  nodup := by simp [pooled, machine]
  unmapped := by simp [pooled, machine]
  pooled := fun n hn => by
    have : n < 2 := hn
    interval_cases n <;> simp [pooled, machine]

theorem pooled_inv : pooled.Inv where
  canonical := by decide
  limits := pooled_limits
  pool := pooled_pool
  segment0 := fun _ => by decide
  atReset := fun h => absurd h (by decide)
  answered := fun _ => by decide
  kind := by decide
  faultPc := fun _ => by decide

theorem witness_AllocReturnsAZeroFilledSegment :
    (roomy.Inv ∧ roomy.x[2].toNat ≤ roomy.cfg.maxSegWords ∧
      roomy.mem.usedWords + roomy.x[2].toNat ≤ roomy.cfg.memCapacityWords ∧ roomy.mem.pool = [] ∧
      roomy.mem.seg.length < roomy.cfg.maxSegments) ∧
    (pooled.Inv ∧ pooled.x[2].toNat ≤ pooled.cfg.maxSegWords ∧
      pooled.mem.usedWords + pooled.x[2].toNat ≤ pooled.cfg.memCapacityWords ∧
      pooled.mem.pool = [1]) :=
  ⟨⟨roomy_inv, by decide⟩, ⟨pooled_inv, by decide⟩⟩

theorem witness_FreeUnmapsAndPoolsTheSegment :
    let s := machine [0] #v[0, 0, 0, 1, 0, 0, 0, 0] [words []]
    s.x[3] ≠ 0 ∧ s.mem.seg[s.x[3].toNat]? = some (.mapped (Segment.ofWords [])) := by decide

/-- x[0] = 0 without a copy, and a copy that fills the capacity of `tiny` exactly. -/
theorem witness_LoadpCopiesTheSegmentAndJumps :
    let s := machine [0] #v[0, 1, 0, 0, 0, 0, 0, 0] [words [7, 8, 9]] [] [] tiny
    (s.mem.seg[s.x[0].toNat]? = some (.mapped (Segment.ofWords [0])) ∧ s.x[0] = 0) ∧
    s.mem.seg[s.x[1].toNat]? = some (.mapped (Segment.ofWords [7, 8, 9])) ∧ s.x[1] ≠ 0 ∧
    s.mem.seg[0]? = some (.mapped (Segment.ofWords [0])) ∧
    s.mem.usedWords - (Segment.ofWords [0]).len + (Segment.ofWords [7, 8, 9]).len ≤
      s.cfg.memCapacityWords := by decide

theorem witness_OutputEmitsTheByte :
    (machine [] #v[0, 0, 0, 255, 0, 0, 0, 0]).x[3].toNat ≤ 255 := by decide

theorem witness_InputReadsTheNextByteOrEof :
    (machine [] (Vector.replicate 8 0) [] [] [255]).inp = 255 :: [] ∧
    (machine [] (Vector.replicate 8 0)).inp = [] := by decide

theorem witness_ArithmeticLawsOfTheFourOperations : (1 : Word) ≠ 0 ∧ (0 < 32) ∧ (31 < 32) := by decide

/-- An identifier at the table size, an unmapped slot, and identifier 0. -/
theorem witness_InvalidSegmentIsRaised :
    let s := machine [0] #v[0, 1, 2, 0, 0, 0, 0, 0] [.unmapped] [1]
    NotMapped s.mem s.x[1] ∧ NotMapped s.mem s.x[2] ∧ s.x[3] = 0 := by
  refine ⟨?_, ?_, by decide⟩ <;> intro sg h <;> cases h

/-- The offset that is the length. -/
theorem witness_OutOfBoundsIsRaised :
    let s := machine [0] #v[0, 1, 2, 0, 0, 0, 0, 0] [words [7, 8]]
    s.mem.seg[s.x[1].toNat]? = some (.mapped (Segment.ofWords [7, 8])) ∧
    (Segment.ofWords [7, 8]).len ≤ s.x[2].toNat := by decide

theorem witness_DivisionByZeroIsRaised : (machine [] #v[0, 0, 9, 0, 0, 0, 0, 0]).x[3] = 0 := by decide

theorem witness_InvalidOutputIsRaised :
    255 < (machine [] #v[0, 0, 0, 256, 0, 0, 0, 0]).x[3].toNat := by decide

theorem witness_UnknownOpcodeIsRaised :
    (machine [0xEFFFFFFF] (Vector.replicate 8 0)).run = .running ∧
    (machine [0xEFFFFFFF] (Vector.replicate 8 0)).mem.segRead 0 0 = .ok 0xEFFFFFFF ∧
    14 ≤ wordBits 0xEFFFFFFF 31 28 := by decide

/-- One above each limit of `tiny`, for allocate-segment. -/
theorem witness_ResourceExhaustedIsRaised_alloc :
    (let s := machine [] #v[0, 0, 5, 0, 0, 0, 0, 0] [] [] [] tiny
     s.cfg.maxSegWords < s.x[2].toNat) ∧
    (let s := machine [0, 0, 0] #v[0, 0, 4, 0, 0, 0, 0, 0] [] [] [] tiny
     s.cfg.memCapacityWords < s.mem.usedWords + s.x[2].toNat) ∧
    (let s := machine [] #v[0, 0, 0, 0, 0, 0, 0, 0] [words []] [] [] tiny
     s.mem.pool = [] ∧ s.cfg.maxSegments ≤ s.mem.seg.length) := by decide

/-- One above the capacity, for load-program. -/
theorem witness_ResourceExhaustedIsRaised_loadp :
    let s := machine [0] #v[0, 1, 0, 0, 0, 0, 0, 0] [words [7, 8, 9], words [1]] [] [] tiny
    s.x[1] ≠ 0 ∧ s.mem.seg[s.x[1].toNat]? = some (.mapped (Segment.ofWords [7, 8, 9])) ∧
    s.mem.seg[0]? = some (.mapped (Segment.ofWords [0])) ∧
    s.cfg.memCapacityWords <
      s.mem.usedWords - (Segment.ofWords [0]).len + (Segment.ofWords [7, 8, 9]).len := by decide

theorem witness_SegReadChecksThenReads :
    let m := (machine [0] (Vector.replicate 8 0) [words [7, 8]]).mem
    NotMapped m 2 ∧ m.seg[(1 : Word).toNat]? = some (.mapped (Segment.ofWords [7, 8])) ∧
    (Segment.ofWords [7, 8]).len ≤ (2 : Word).toNat ∧
    (Segment.ofWords [7, 8]).words[(1 : Word).toNat]? = some 8 := by
  refine ⟨fun sg h => ?_, by decide, by decide, by decide⟩
  cases h

theorem witness_SegWriteChecksThenReplacesTheWord :
    let m := (machine [0] (Vector.replicate 8 0) [words [7, 8]]).mem
    m.wf = true ∧ NotMapped m 2 ∧ m.seg[(1 : Word).toNat]? = some (.mapped (Segment.ofWords [7, 8])) ∧
    (Segment.ofWords [7, 8]).len ≤ (2 : Word).toNat ∧ (1 : Word).toNat < (Segment.ofWords [7, 8]).len := by
  refine ⟨by decide, fun sg h => ?_, by decide, by decide, by decide⟩
  cases h

theorem witness_SegFreeUnmapsAndPushes :
    let m := (machine [0] (Vector.replicate 8 0) [words [7, 8]]).mem
    NotMapped m 2 ∧ (1 : Word) ≠ 0 ∧
    m.seg[(1 : Word).toNat]? = some (.mapped (Segment.ofWords [7, 8])) := by
  refine ⟨fun sg h => ?_, by decide, by decide⟩
  cases h

theorem witness_SegmentsRefineWordLists :
    (Segment.ofWords [7, 0, 9]).wf = true ∧ 2 < (Segment.ofWords [7, 0, 9]).len ∧
    (Segment.zeros 3).wf = true ∧ (Segment.zeros 3).words = (Segment.ofWords [0, 0, 0]).words := by decide

/-- The new segment fills the limits of `tiny` exactly. -/
theorem witness_FreedIdentifierIsReusedFirst :
    let s := machine [0, 0] #v[0, 1, 4, 0, 0, 0, 0, 0] [words [7, 8, 9]] [] [] tiny
    s.x[1] ≠ 0 ∧ s.mem.seg[s.x[1].toNat]? = some (.mapped (Segment.ofWords [7, 8, 9])) ∧
    s.x[2].toNat ≤ s.cfg.maxSegWords ∧
    s.mem.usedWords - (Segment.ofWords [7, 8, 9]).len + s.x[2].toNat ≤ s.cfg.memCapacityWords := by decide

theorem witness_AllocReturnsAFreshNonZeroIdentifier :
    (roomy.Inv ∧ roomy.run = .running ∧ ∃ t, exec (.alloc 3 2) roomy = .next t ∧ t.run = .running) ∧
    (pooled.Inv ∧ pooled.run = .running ∧ ∃ t, exec (.alloc 3 2) pooled = .next t ∧ t.run = .running) :=
  ⟨⟨roomy_inv, by decide, ⟨_, rfl, rfl⟩⟩, ⟨pooled_inv, by decide, ⟨_, rfl, rfl⟩⟩⟩

theorem witness_TableAndLiveSegmentsKeepTheirSize :
    roomy.Inv ∧ ∃ t, step roomy = .next t ∧
      roomy.mem.seg[0]? = some (.mapped (Segment.ofWords [0x8000001A, 0])) ∧
      t.mem.seg[0]? = some (.mapped (Segment.ofWords [0x8000001A, 0])) :=
  ⟨roomy_inv, ⟨_, rfl, by decide, rfl⟩⟩

/-- `sstore r1, r2, r3` to the last word of segment 0, which is the next one. -/
theorem witness_StoredWordIsFetchedNext :
    let s := machine [0x20000053, 0] #v[0, 0, 1, 9, 0, 0, 0, 0]
    s.mem.wf = true ∧ s.run = .running ∧ s.mem.segRead 0 s.pc = .ok 0x20000053 ∧
    decode 0x20000053 = .ok (.sstore 1 2 3) ∧ s.x[1] = 0 ∧ s.x[2] = s.pc + 1 ∧
    s.mem.seg[0]? = some (.mapped (Segment.ofWords [0x20000053, 0])) ∧
    s.x[2].toNat < (Segment.ofWords [0x20000053, 0]).len := by decide

/-- `loadp r1, r2`, with a copy that fills the capacity of `tiny`, and with x[1] = 0. -/
theorem witness_LoadedProgramIsFetchedNext :
    (let s := machine [0xC000000A] #v[0, 1, 2, 0, 0, 0, 0, 0] [words [7, 8, 9]] [] [] tiny
     s.run = .running ∧ s.mem.segRead 0 s.pc = .ok 0xC000000A ∧ decode 0xC000000A = .ok (.loadp 1 2) ∧
     s.mem.seg[s.x[1].toNat]? = some (.mapped (Segment.ofWords [7, 8, 9])) ∧
     s.mem.seg[0]? = some (.mapped (Segment.ofWords [0xC000000A])) ∧
     s.mem.usedWords - (Segment.ofWords [0xC000000A]).len + (Segment.ofWords [7, 8, 9]).len ≤
       s.cfg.memCapacityWords ∧ (Segment.ofWords [7, 8, 9]).words[s.x[2].toNat]? = some 9) ∧
    (let s := machine [0xC000000A] (Vector.replicate 8 0)
     s.mem.seg[s.x[1].toNat]? = some (.mapped (Segment.ofWords [0xC000000A])) ∧ s.x[1] = 0 ∧
     (Segment.ofWords [0xC000000A]).words[s.x[2].toNat]? = some 0xC000000A) := by decide

theorem witness_StepIsTheReplayOfItsTransactions :
    (∃ t, step { State.reset with image := some [0, 0, 0, 0] } = .next t) ∧ ∃ t, step pooled = .next t :=
  ⟨⟨_, rfl⟩, ⟨_, rfl⟩⟩

theorem witness_ArbiterOrdersTheRequesters :
    pooled.run = .running ∧ State.reset.run = .loading ∧
    ({ State.reset with run := .halted } : State).run = .halted ∧
    ({ State.reset with run := .faulted } : State).run = .faulted := by decide

/-- An output, an input, a load, a fetch fault and an unknown opcode. -/
theorem witness_ByteChannelsAreUsedInProgramOrder :
    (let s := machine [0xA0000003] (Vector.replicate 8 0)
     s.run = .running ∧ s.mem.segRead 0 s.pc = .ok 0xA0000003 ∧ decode 0xA0000003 = .ok (.output 3) ∧
     ∃ t, step s = .next t ∧ t.out = s.out ++ [0]) ∧
    (let s := machine [0xB0000001] (Vector.replicate 8 0) [] [] [65]
     s.run = .running ∧ s.mem.segRead 0 s.pc = .ok 0xB0000001 ∧ decode 0xB0000001 = .ok (.input 1) ∧
     ∃ t, step s = .next t ∧ s.inp = 65 :: t.inp) ∧
    (∃ t, step { State.reset with image := some [] } = .next t) ∧
    (∃ t, step (machine [] (Vector.replicate 8 0)) = .next t) ∧
    ∃ t, step (machine [0xE0000000] (Vector.replicate 8 0)) = .next t :=
  ⟨⟨by decide, by decide, by decide, ⟨_, rfl, rfl⟩⟩, ⟨by decide, by decide, by decide, ⟨_, rfl, rfl⟩⟩,
    ⟨_, rfl⟩, ⟨_, rfl⟩, ⟨_, rfl⟩⟩

theorem witness_ResetGivesTheResetValues :
    ({ State.reset with run := .faulted } : State).run ≠ .running ∧ pooled.run = .running := by decide

/-- 5 bytes, and 4 bytes. -/
theorem witness_ImageIsBigEndianWords :
    ([0, 0, 0, 0, 0] : List Byte).length % 4 ≠ 0 ∧ State.reset.run = .loading ∧
    ({ State.reset with image := some [0, 0, 0, 0, 0] } : State).image = some [0, 0, 0, 0, 0] ∧
    ([0, 0, 0, 0] : List Byte).length % 4 = 0 ∧ 0 < ([0, 0, 0, 0] : List Byte).length / 4 := by decide

/-- An image of MAX_SEG_WORDS words. -/
theorem witness_AcceptedImageStartsTheRun :
    (imageWords (List.replicate 16 0)).toOption = some [0, 0, 0, 0] ∧
    ([0, 0, 0, 0] : List Word).length ≤ tiny.maxSegWords ∧
    ([0, 0, 0, 0] : List Word).length ≤ tiny.memCapacityWords := by decide

/-- 5 bytes; one word more than MAX_SEG_WORDS; and one word more than a capacity of 3 words. -/
theorem witness_LoadPhaseFaultsAreRaised :
    (State.resetWith tiny []).run = .loading ∧ ([0, 0, 0, 0, 0] : List Byte).length % 4 ≠ 0 ∧
    (List.replicate 20 (0 : Byte)).length % 4 = 0 ∧
    tiny.maxSegWords < (List.replicate 20 (0 : Byte)).length / 4 ∧
    ({ tiny with memCapacityWords := 3 } : Config).memCapacityWords <
      (List.replicate 16 (0 : Byte)).length / 4 := by decide

theorem witness_LoadInitialIsAcceptedOnlyOnce :
    State.reset.run = .loading ∧ State.reset.image = none ∧ pooled.run ≠ .loading := by decide

theorem witness_ExitStatusTellsHowTheRunEnded :
    ({ State.reset with run := .halted } : State).run = .halted ∧
    ({ State.reset with run := .faulted } : State).run = .faulted ∧ pooled.ended = false := by decide

/-- Each run state, and each kind as the one recorded. -/
theorem witness_StatusFieldsShowRunStateAndFault :
    (∀ run, ({ State.reset with run := run } : State).run = run) ∧
    ∀ kind, ({ State.reset with fkind := kind } : State).fkind = kind :=
  ⟨fun _ => rfl, fun _ => rfl⟩

theorem witness_StepKeepsTheInvariant :
    (roomy.Inv ∧ ∃ t, step roomy = .next t) ∧ (pooled.Inv ∧ ∃ t, step pooled = .next t) :=
  ⟨⟨roomy_inv, ⟨_, rfl⟩⟩, ⟨pooled_inv, ⟨_, rfl⟩⟩⟩

end Sys2Proof.Tests
end

/-! # Proofs: the state, its run states and its reset (10_state.md) -/

namespace Sys2Proof.Machine

/-! ### Registers read and written (R22)

`{ s with x := y }` is `s` with another register file. -/

/-- The outcomes `o` from `s` and `o'` from `s'` are next states that differ in registers only: the
registers of `ws` get the same values, or no register is written, and every other register keeps its
value. -/
def SameEffect (ws : List Reg) (s s' : State) (o o' : StepOutcome) : Prop :=
  ∃ t t', o = .next t ∧ o' = .next t' ∧ t' = { t with x := t'.x } ∧
    ((∀ r ∈ ws, t'.x[r] = t.x[r]) ∨ (t.x = s.x ∧ t'.x = s'.x)) ∧
    ∀ r, r ∉ ws → t.x[r] = s.x[r] ∧ t'.x[r] = s'.x[r]

/-- Outcomes that write no register. -/
theorem sameEffect_of_x_eq (ws : List Reg) {s s' t : State} (h : t.x = s.x) :
    SameEffect ws s s' (.next t) (.next { t with x := s'.x }) :=
  ⟨t, _, rfl, rfl, rfl, .inr ⟨h, rfl⟩, fun _ _ => ⟨by rw [h], rfl⟩⟩

/-- Outcomes that write one value to one register. -/
theorem sameEffect_setReg (a : Reg) (v : Word) {s s' t : State} (h : t.x = s.x) :
    SameEffect [a] s s' (.next (t.setReg a v)) (.next ({ t with x := s'.x }.setReg a v)) := by
  refine ⟨_, _, rfl, rfl, rfl, .inl fun r hr => ?_, fun r hr => ?_⟩
  · obtain rfl := List.mem_singleton.mp hr
    simp
  · have hne : a.val ≠ r.val := fun e => hr (List.mem_singleton.mpr (Fin.ext e.symm))
    simp [hne, h]

/-- An operation that may fault raises the same fault from both states, so only its completion counts. -/
theorem sameEffect_completeOrRaise {α : Type} (r : Except FaultKind α) {ws : List Reg} {s : State}
    {y : Vector Word 8} {f f' : α → State}
    (h : ∀ a, SameEffect ws s { s with x := y } (.next (f a)) (.next (f' a))) :
    SameEffect ws s { s with x := y } (completeOrRaise r s f)
      (completeOrRaise r { s with x := y } f') := by
  cases r with
  | ok a => exact h a
  | error kind =>
    exact sameEffect_of_x_eq (s' := { s with x := y }) (t := raiseAt kind s.ipc s) ws rfl

/-- The input channel does not see the register file (R174). -/
theorem inByte_with_x (s : State) (y : Vector Word 8) :
    ({ s with x := y } : State).inByte = (s.inByte.1, { s.inByte.2 with x := y }) := by
  cases h : s.inp with
  | nil => simp [State.inByte, h]
  | cons b rest => simp [State.inByte, h]

/-- R22: an instruction has the same effect from two states that differ only in registers it does not
read. -/
theorem exec_sameEffect (i : Instr) (s : State) (y : Vector Word 8)
    (h : ∀ r ∈ i.reads, ({ s with x := y } : State).reg r = s.reg r) :
    SameEffect i.writes s { s with x := y } (exec i s) (exec i { s with x := y }) := by
  cases i <;>
    simp only [Instr.reads, List.forall_mem_cons, List.not_mem_nil, false_implies, implies_true,
      and_true] at h
  case cmov a b c =>
    obtain ⟨hb, hc⟩ := h
    simp only [exec, execCmov, hb, hc]
    split
    · exact sameEffect_setReg a _ rfl
    · exact sameEffect_of_x_eq _ rfl
  case sload a b c =>
    obtain ⟨hb, hc⟩ := h
    simp only [exec, execSload, hb, hc]
    exact sameEffect_completeOrRaise _ fun v => sameEffect_setReg a v rfl
  case sstore a b c =>
    obtain ⟨ha, hb, hc⟩ := h
    simp only [exec, execSstore, ha, hb, hc]
    exact sameEffect_completeOrRaise _ fun m => sameEffect_of_x_eq (t := s.setMem m) _ rfl
  case add a b c =>
    obtain ⟨hb, hc⟩ := h
    simp only [exec, execAdd, hb, hc]
    exact sameEffect_setReg a _ rfl
  case mul a b c =>
    obtain ⟨hb, hc⟩ := h
    simp only [exec, execMul, hb, hc]
    exact sameEffect_setReg a _ rfl
  case div a b c =>
    obtain ⟨hb, hc⟩ := h
    simp only [exec, execDiv, hb, hc]
    exact sameEffect_completeOrRaise _ fun q => sameEffect_setReg a q rfl
  case nand a b c =>
    obtain ⟨hb, hc⟩ := h
    simp only [exec, execNand, hb, hc]
    exact sameEffect_setReg a _ rfl
  case halt => exact sameEffect_of_x_eq (t := s.stop.setMem s.mem.segReleaseAll) _ rfl
  case alloc b c =>
    simp only [exec, execAlloc, h]
    exact sameEffect_completeOrRaise _ fun r => sameEffect_setReg (t := s.setMem r.2) b r.1 rfl
  case free c =>
    simp only [exec, execFree, h]
    exact sameEffect_completeOrRaise _ fun m => sameEffect_of_x_eq (t := s.setMem m) _ rfl
  case output c =>
    simp only [exec, execOutput, h]
    split
    · exact sameEffect_of_x_eq (t := s.outByte _) _ rfl
    · exact sameEffect_of_x_eq (t := raiseAt .invalidOutput s.ipc s) _ rfl
  case input c =>
    simp only [exec, execInput, inByte_with_x]
    exact sameEffect_setReg c _ (inByte_frame s).1
  case loadp b c =>
    obtain ⟨hb, hc⟩ := h
    simp only [exec, execLoadp, hb, hc]
    exact sameEffect_completeOrRaise _ fun m =>
      sameEffect_of_x_eq (t := (s.setMem m).redirect (s.reg c)) _ rfl
  case loadi a imm => exact sameEffect_setReg a _ rfl

/-- Settles O17, instruction by instruction. -/
theorem registersNotListedAreNotUsed : Obligations.RegistersNotListedAreNotUsed := by
  intro i s s' hs h
  obtain ⟨y, rfl⟩ : ∃ y, s' = { s with x := y } := ⟨_, hs⟩
  exact exec_sameEffect i s y h

/-! ### Run states (R31) -/

/-- LOADING becomes RUNNING or FAULTED. -/
theorem loadingStep_run {s t : State} (h : loadingStep s = .next t) :
    t.run = .running ∨ t.run = .faulted := by
  obtain ⟨_, _, ⟨m, _, rfl⟩ | ⟨kind, _, rfl⟩⟩ := loadingStep_cases h
  · exact .inl rfl
  · exact .inr rfl

/-- An instruction keeps the run state, or it faults, or it is halt. -/
theorem exec_run {i : Instr} {s t : State} (h : exec i s = .next t) :
    t.run = s.run ∨ t.run = .faulted ∨ (t.run = .halted ∧ i = .halt) := by
  obtain hc | ⟨kind, rfl⟩ := exec_cases h
  · obtain hrun | ⟨hi, hrun⟩ := hc.run
    · exact .inl hrun
    · exact .inr (.inr ⟨hrun, hi⟩)
  · exact .inr (.inl rfl)

/-- RUNNING stays, becomes FAULTED, or becomes HALTED by a fetched halt. -/
theorem runningStep_run {s t : State} (hrun : s.run = .running) (h : runningStep s = .next t) :
    t.run = .running ∨ t.run = .faulted ∨
      (t.run = .halted ∧ ∃ w, s.mem.segRead 0 s.pc = .ok w ∧ decode w = .ok .halt) := by
  obtain ⟨kind, _, rfl⟩ | ⟨w, _, _, rfl⟩ | ⟨w, i, hw, hd, he⟩ := runningStep_cases h
  · exact .inr (.inl rfl)
  · exact .inr (.inl rfl)
  · obtain ht | ht | ⟨ht, rfl⟩ := exec_run he
    · exact .inl (ht.trans hrun)
    · exact .inr (.inl ht)
    · exact .inr (.inr ⟨ht, w, hw, hd⟩)

/-- Settles O13, from what a step in each run state can answer. -/
theorem runStateTransitionsAreTheListedOnes : Obligations.RunStateTransitionsAreTheListedOnes := by
  intro s t h
  obtain ⟨hrun, hl⟩ | ⟨hrun, hr⟩ := step_cases h
  · exact .inl ⟨hrun, loadingStep_run hl⟩
  · exact .inr ⟨hrun, runningStep_run hrun hr⟩

@[simp] theorem ended_iff {s : State} : s.ended = true ↔ s.run = .halted ∨ s.run = .faulted := by
  simp [State.ended]

theorem step_of_halted {s : State} (h : s.run = .halted) : step s = .fault .halted := by
  simp [step, h]

theorem step_of_faulted {s : State} (h : s.run = .faulted) : step s = .fault .faulted := by
  simp [step, h]

theorem loadingStep_of_no_image {s : State} (h : s.image = none) :
    loadingStep s = .fault .awaitingImage := by
  simp [loadingStep, h]

/-- A run that has ended has no next state. -/
theorem step_ne_next_of_ended {s : State} (h : s.ended = true) (t : State) : step s ≠ .next t := by
  obtain hh | hf := ended_iff.mp h
  · simp [step_of_halted hh]
  · simp [step_of_faulted hf]

/-- From a state without a next state only that state is reached. -/
theorem eq_of_reaches_of_no_step {s t : State} (h : ∀ u, step s ≠ .next u) (hr : Reaches s t) :
    t = s := by
  cases hr with
  | refl => rfl
  | step first _ => exact absurd first (h _)

/-- Settles O14. -/
theorem endedRunsTakeNoStep : Obligations.EndedRunsTakeNoStep :=
  ⟨fun _ _ he hr => eq_of_reaches_of_no_step (step_ne_next_of_ended he) hr,
    fun _ => step_of_halted, fun _ => step_of_faulted,
    fun _ hl hi => (step_of_loading hl).trans (loadingStep_of_no_image hi)⟩

/-! ### Reset (R39, R200) -/

theorem resetWith_getElem_x (cfg : Config) (inp : List Byte) (r : Reg) :
    (State.resetWith cfg inp).x[r] = 0 := by
  simp [State.resetWith]

/-- R200: outside RUNNING a host reset gives the reset state. -/
theorem hostReset_of_not_running (inp : List Byte) {s : State} (h : s.run ≠ .running) :
    hostReset inp s = .next (State.resetWith s.cfg inp) := by
  cases hr : s.run with
  | running => exact absurd hr h
  | loading => simp [hostReset, hr]
  | halted => simp [hostReset, hr]
  | faulted => simp [hostReset, hr]

/-- R200: a host reset while RUNNING is refused. -/
theorem hostReset_of_running (inp : List Byte) {s : State} (h : s.run = .running) :
    hostReset inp s = .refused .resetWhileRunning := by
  simp [hostReset, h]

/-- Settles O51. -/
theorem resetGivesTheResetValues : Obligations.ResetGivesTheResetValues :=
  ⟨fun cfg inp => ⟨resetWith_getElem_x cfg inp, rfl, rfl, rfl, rfl, rfl, rfl, rfl, rfl⟩,
    fun inp _ => hostReset_of_not_running inp, fun inp _ => hostReset_of_running inp⟩

/-- The empty table is within every limit. -/
theorem withinLimits_empty (cfg : Config) : WithinLimits cfg Memory.empty where
  slots := Nat.zero_le _
  words := Nat.zero_le _
  each := fun _ h => absurd h List.not_mem_nil

/-- The empty table has no unmapped slot, and its pool no identifier. -/
theorem poolExact_empty : PoolExact Memory.empty where
  nodup := List.nodup_nil
  unmapped := fun _ h => absurd h List.not_mem_nil
  pooled := fun _ h => absurd h (Nat.not_lt_zero _)

/-- Settles O58, clause by clause: the table is empty and the run state is LOADING. -/
theorem resetStateIsInvariant : Obligations.ResetStateIsInvariant := fun cfg _ _ =>
  { canonical := rfl
    limits := withinLimits_empty cfg
    pool := poolExact_empty
    segment0 := by simp [State.resetWith]
    atReset := fun _ => rfl
    answered := fun h => absurd rfl h
    kind := by simp [State.resetWith]
    faultPc := fun _ => rfl }

/-! ### The status fields (R32) -/

@[simp] theorem status_runState (s : State) : s.status.runState = s.run.code := rfl
@[simp] theorem status_faultKind (s : State) : s.status.faultKind = faultKindField s.fkind := rfl
@[simp] theorem status_faultPc (s : State) : s.status.faultPc = s.fpc := rfl

/-- Settles O57: each field is its code function, and each code is read off that function's equation. -/
theorem statusFieldsShowRunStateAndFault : Obligations.StatusFieldsShowRunStateAndFault := by
  intro s
  refine ⟨status_faultPc s, ?_, ?_, ?_, ?_, ?_, ?_, ?_, ?_, ?_, ?_, ?_, ?_⟩ <;>
    intro h <;>
    simp [h, RunState.code, faultKindField, FaultKind.code]

end Sys2Proof.Machine

/-! # Proofs: segment memory (20_memory.md) -/

namespace Sys2Proof.Machine

/-! ### What a step does to the table

In RUNNING the table changes by the execute transaction only (R64), so what every transaction keeps, every
instruction keeps. -/

/-- Every instruction keeps the canonical form of the memory. -/
theorem exec_wf {i : Instr} {s t : State} (h : exec i s = .next t) (hw : s.mem.wf = true) :
    t.mem.wf = true := by
  rw [exec_mem h]
  split
  · exact after_wf _ hw
  · exact hw

/-- Every instruction keeps the limits, the exact pool and segment 0. -/
theorem exec_tableOk {i : Instr} {s t : State} (h : exec i s = .next t)
    (ht : TableOk s.cfg s.mem) : TableOk s.cfg t.mem := by
  rw [exec_mem h]
  split
  · exact after_tableOk _ ht
  · exact ht

/-- An image that is accepted is a sequence of words installed by SegLoadInitial (R202, R203). -/
theorem imageMemory_ok {cfg : Config} {bytes : List Byte} {m : Memory}
    (h : imageMemory cfg bytes = .ok m) :
    ∃ words, imageWords bytes = .ok words ∧ Memory.segLoadInitial cfg words = .ok m := by
  unfold imageMemory at h
  split at h
  · exact ⟨_, ‹_›, h⟩
  · exact absurd h (by simp)

/-! ### Completed instructions

An instruction whose table operation succeeds completes with that operation's table. -/

section Completion

variable {s : State} {m : Memory}

theorem exec_sstore_of_ok {a b c : Reg}
    (h : s.mem.segWrite (s.reg a) (s.reg b) (s.reg c) = .ok m) :
    exec (.sstore a b c) s = .next (s.setMem m) := by
  simp [exec, execSstore, h]

theorem exec_alloc_of_ok {b c : Reg} {id : Word}
    (h : s.mem.segAlloc s.cfg (s.reg c) = .ok (id, m)) :
    exec (.alloc b c) s = .next ((s.setMem m).setReg b id) := by
  simp [exec, execAlloc, h]

theorem exec_free_of_ok {c : Reg} (h : s.mem.segFree (s.reg c) = .ok m) :
    exec (.free c) s = .next (s.setMem m) := by
  simp [exec, execFree, h]

theorem exec_loadp_of_ok {b c : Reg} (h : s.mem.segDup s.cfg (s.reg b) = .ok m) :
    exec (.loadp b c) s = .next ((s.setMem m).redirect (s.reg c)) := by
  simp [exec, execLoadp, h]

end Completion

/-! ### The invariant (R50, R52, R55) -/

theorem State.Inv.tableOk {s : State} (h : s.Inv) (hr : s.run = .running) : TableOk s.cfg s.mem :=
  ⟨h.limits, h.pool, h.segment0 (.inl hr)⟩

/-- Outside FAULTED no fault is recorded (R32). -/
theorem State.Inv.fkind_eq_none {s : State} (h : s.Inv) (hr : s.run ≠ .faulted) : s.fkind = none := by
  cases hk : s.fkind with
  | none => rfl
  | some kind => exact absurd (h.kind.mp (by simp [hk])) hr

/-- The invariant once the program is loaded and no fault is recorded. -/
theorem inv_of_loaded {t : State} (hr : t.run = .running ∨ t.run = .halted) (hw : t.mem.wf = true)
    (ht : TableOk t.cfg t.mem) (hi : t.image = none) (hk : t.fkind = none) (hp : t.fpc = 0) :
    t.Inv where
  canonical := hw
  limits := ht.limits
  pool := ht.pool
  segment0 := fun _ => ht.zero
  atReset := fun hl => by simp [hl] at hr
  answered := fun _ => hi
  kind := by rcases hr with hr | hr <;> simp [hk, hr]
  faultPc := fun _ => hp

/-- Recording a fatal error keeps the table, and with it the invariant (R181). -/
theorem inv_raiseAt {s : State} (kind : FaultKind) (offset : Word) (hw : s.mem.wf = true)
    (hl : WithinLimits s.cfg s.mem) (hp : PoolExact s.mem) (hi : s.image = none) :
    (raiseAt kind offset s).Inv where
  canonical := hw
  limits := hl
  pool := hp
  segment0 := by simp
  atReset := by simp
  answered := fun _ => hi
  kind := by simp
  faultPc := fun h => absurd rfl h

/-- LOADING keeps the invariant: the image becomes segment 0, or the load faults with an empty table. -/
theorem loadingStep_inv {s t : State} (h : s.Inv) (hr : s.run = .loading)
    (hs : loadingStep s = .next t) : t.Inv := by
  obtain ⟨bytes, _, ⟨m, hm, rfl⟩ | ⟨kind, _, rfl⟩⟩ := loadingStep_cases hs
  · obtain ⟨words, _, hload⟩ := imageMemory_ok hm
    have hnf : s.run ≠ .faulted := by simp [hr]
    exact inv_of_loaded (.inl rfl) (segLoadInitial_wf hload) (segLoadInitial_tableOk hload) rfl
      (h.fkind_eq_none hnf) (h.faultPc hnf)
  · exact inv_raiseAt kind 0 h.canonical h.limits h.pool rfl

/-- An instruction keeps the invariant: it completes with a table that is still good, or it faults. -/
theorem exec_inv {i : Instr} {s t : State} (h : s.Inv) (hr : s.run = .running)
    (he : exec i s.executePhase = .next t) : t.Inv := by
  have hi : s.image = none := h.answered (by simp [hr])
  have hnf : s.run ≠ .faulted := by simp [hr]
  obtain hc | ⟨kind, rfl⟩ := exec_cases he
  · have hrun : t.run = .running ∨ t.run = .halted := by
      obtain hrun | ⟨_, hrun⟩ := hc.run
      · exact .inl (hrun.trans hr)
      · exact .inr hrun
    have ht : TableOk t.cfg t.mem := by
      rw [hc.cfg]
      exact exec_tableOk he (h.tableOk hr)
    exact inv_of_loaded hrun (exec_wf he h.canonical) ht (hc.image.trans hi)
      (hc.fkind.trans (h.fkind_eq_none hnf)) (hc.fpc.trans (h.faultPc hnf))
  · exact inv_raiseAt (s := s.executePhase) kind _ h.canonical h.limits h.pool hi

/-- RUNNING keeps the invariant, whichever way its step goes. -/
theorem runningStep_inv {s t : State} (h : s.Inv) (hr : s.run = .running)
    (hs : runningStep s = .next t) : t.Inv := by
  have hi : s.image = none := h.answered (by simp [hr])
  obtain ⟨kind, _, rfl⟩ | ⟨w, _, _, rfl⟩ | ⟨w, i, _, _, he⟩ := runningStep_cases hs
  · exact inv_raiseAt (s := s.latch) kind _ h.canonical h.limits h.pool hi
  · exact inv_raiseAt (s := s.executePhase) _ _ h.canonical h.limits h.pool hi
  · exact exec_inv h hr he

/-- Settles O59, by the run state in which the step happens. -/
theorem stepKeepsTheInvariant : Obligations.StepKeepsTheInvariant := by
  intro s t h hs
  obtain ⟨hr, hl⟩ | ⟨hr, hrun⟩ := step_cases hs
  · exact loadingStep_inv h hr hl
  · exact runningStep_inv h hr hrun

/-! ### SegRead, SegWrite and SegFree on lists of words (R41, R44, R45, R47) -/

/-- R42, R43: an identifier without a live segment is one that `lookup` does not find. -/
theorem notMapped_iff {m : Memory} {id : Word} : NotMapped m id ↔ m.lookup id = none :=
  lookup_eq_none.symm

/-- An offset holds a word of the list exactly when it is below the length. -/
theorem words_getElem?_eq_some {sg : Segment} {off : Nat} {v : Word} :
    sg.words[off]? = some v ↔ off < sg.len ∧ sg.wordAt off = v := by
  simp [words_getElem?]

/-- R44: a read within the segment gives the word of its list. -/
theorem segRead_of_words {m : Memory} {id off : Word} {sg : Segment} {v : Word}
    (h : m.lookup id = some sg) (hv : sg.words[off.toNat]? = some v) : m.segRead id off = .ok v := by
  obtain ⟨hlt, rfl⟩ := words_getElem?_eq_some.mp hv
  exact segRead_ok_iff.mpr ⟨sg, h, hlt, rfl⟩

/-- Settles O39. -/
theorem segReadChecksThenReads : Obligations.SegReadChecksThenReads := by
  refine fun m id off => ⟨fun h => ?_, fun sg h hle => ?_, fun sg v h hv => ?_⟩
  · exact segRead_of_none off (notMapped_iff.mp h)
  · rw [segRead_of_some off (lookup_eq_some.mpr h), if_neg (Nat.not_lt.mpr hle)]
  · exact segRead_of_words (lookup_eq_some.mpr h) hv

/-- R45: a write is the update of the list of words. -/
theorem words_setWord {sg : Segment} (h : sg.wf = true) {off : Nat} (v : Word) (hlt : off < sg.len) :
    (sg.setWord off v).words = sg.words.set off v := by
  refine List.ext_getElem? fun k => ?_
  rw [words_getElem?, setWord_len, wordAt_setWord h]
  by_cases he : k = off
  · subst he
    simp [hlt]
  · rw [List.getElem?_set_ne (Ne.symm he), words_getElem?, if_neg he]

/-- Settles O40. -/
theorem segWriteChecksThenReplacesTheWord : Obligations.SegWriteChecksThenReplacesTheWord := by
  refine fun m id off v hw => ⟨fun h => ?_, fun sg h hle => ?_, fun sg h hlt => ?_⟩
  · exact segWrite_of_none off v (notMapped_iff.mp h)
  · rw [segWrite_of_some off v (lookup_eq_some.mpr h), if_neg (Nat.not_lt.mpr hle)]
  · have hl : m.lookup id = some sg := lookup_eq_some.mpr h
    have hsg : sg.wf = true := wf_of_lookup hw hl
    refine ⟨sg.setWord off.toNat v, ?_, words_setWord hsg v hlt, setWord_wf hsg v hlt⟩
    rw [segWrite_of_some off v hl, if_pos hlt]
    rfl

/-- A slot that was just unmapped names no segment (R47). -/
theorem lookup_set_unmapped {m : Memory} {id : Word} (pool : List Word)
    (h : id.toNat < m.seg.length) :
    Memory.lookup { seg := m.seg.set id.toNat .unmapped, pool := pool } id = none := by
  simp [lookup_set _ _ _ _ _ h]

/-- Settles O41. -/
theorem segFreeUnmapsAndPushes : Obligations.SegFreeUnmapsAndPushes := by
  refine fun m id => ⟨fun h => segFree_error (h.imp_right notMapped_iff.mp), fun sg h0 h => ?_⟩
  have hl : m.lookup id = some sg := lookup_eq_some.mpr h
  refine ⟨_, segFree_of_some h0 hl, rfl, List.length_set, segFree_error (.inr ?_)⟩
  exact lookup_set_unmapped _ (lookup_lt hl)

/-- R46: a new segment is a list of zeros. -/
theorem words_zeros (n : Nat) : (Segment.zeros n).words = List.replicate n 0 := by
  refine List.ext_getElem? fun k => ?_
  rw [words_getElem?, List.getElem?_replicate]
  rfl

/-- R49: an image is the list of its words. -/
theorem words_ofWords (words : List Word) : (Segment.ofWords words).words = words := by
  refine List.ext_getElem? fun k => ?_
  rw [words_getElem?, ofWords_len, ofWords_wordAt]
  by_cases hlt : k < words.length
  · simp [hlt]
  · simp [Nat.not_lt.mp hlt]

/-- Canonical segments with the same list of words are the same data. -/
theorem eq_of_words_eq {a b : Segment} (ha : a.wf = true) (hb : b.wf = true)
    (h : a.words = b.words) : a = b := by
  have hlen : a.len = b.len := by rw [← words_length a, h, words_length]
  refine segment_ext ha hb hlen fun off hlt => ?_
  have hword : a.words[off]? = some (a.wordAt off) := words_getElem?_eq_some.mpr ⟨hlt, rfl⟩
  rw [h] at hword
  exact (words_getElem?_eq_some.mp hword).2.symm

/-- Settles O42. -/
theorem segmentsRefineWordLists : Obligations.SegmentsRefineWordLists :=
  ⟨fun _ _ v h hlt => ⟨words_setWord h v hlt, setWord_wf h v hlt⟩,
    fun n => ⟨words_zeros n, zeros_wf n⟩,
    fun words => ⟨words_ofWords words, ofWords_wf words⟩,
    fun _ _ => eq_of_words_eq⟩

/-! ### Allocation (R46, R50, R52, R53) -/

/-- Freeing a live segment gives its words back to the capacity. -/
theorem roomFor_after_free {cfg : Config} {m : Memory} {id : Word} {sg : Segment} {len : Nat}
    (pool : List Word) (h : m.seg[id.toNat]? = some (.mapped sg)) (hlen : len ≤ cfg.maxSegWords)
    (hcap : m.usedWords - sg.len + len ≤ cfg.memCapacityWords) :
    Memory.roomFor cfg { seg := m.seg.set id.toNat .unmapped, pool := pool } len = true := by
  have hused := usedWords_set pool Slot.unmapped h
  simp only [Slot.wordCount] at hused
  exact roomFor_iff.mpr ⟨hlen, by omega⟩

/-- Settles O43: the free pushes x[C] and the allocation, which has room, takes it from the top. -/
theorem freedIdentifierIsReusedFirst : Obligations.FreedIdentifierIsReusedFirst := by
  intro b c d s sg h0 h hlen hcap
  have hlt : s.x[c].toNat < s.mem.seg.length := (List.getElem?_eq_some_iff.mp h).1
  have hfree := segFree_of_some h0 (lookup_eq_some.mpr h)
  have halloc := segAlloc_of_pool (roomFor_after_free (s.x[c] :: s.mem.pool) h hlen hcap) rfl
  refine ⟨_, _, exec_free_of_ok hfree, exec_alloc_of_ok (s := s.setMem _) halloc, rfl, rfl, ?_, ?_⟩
  · simp
  · exact segRead_of_zeros (lookup_eq_some.mpr (List.getElem?_set_self (by simpa using hlt)))

/-- R46, R50, R52: an allocation gives an identifier that is not 0, named no live segment before and names
one after. -/
theorem segAlloc_fresh {cfg : Config} {m m' : Memory} {len id : Word} (h : TableOk cfg m)
    (ha : m.segAlloc cfg len = .ok (id, m')) :
    id ≠ 0 ∧ NotMapped m id ∧ ¬ NotMapped m' id := by
  obtain ⟨z, hz⟩ := valid_zero_iff.mp h.zero
  have hfresh : NotMapped m id ∧ ¬ NotMapped m' id := by
    obtain ⟨_, ⟨rest, hp, rfl⟩ | ⟨_, hsize, rfl, rfl⟩⟩ := segAlloc_ok_iff.mp ha
    · have hu := h.pool.unmapped id (by simp [hp])
      have hlt : id.toNat < m.seg.length := (List.getElem?_eq_some_iff.mp hu).1
      exact ⟨by simp [NotMapped, hu], by simp [NotMapped, hlt]⟩
    · have hid : (BitVec.ofNat 32 m.size).toNat = m.seg.length := by
        rw [BitVec.toNat_ofNat]
        exact Nat.mod_eq_of_lt (Nat.lt_of_lt_of_le hsize cfg.maxSegments_le)
      exact ⟨by simp [NotMapped, hid], by simp [NotMapped, hid]⟩
  refine ⟨?_, hfresh⟩
  rintro rfl
  exact hfresh.1 z hz

/-- Settles O44: the instruction completed, so its identifier is the one SegAlloc gave. -/
theorem allocReturnsAFreshNonZeroIdentifier : Obligations.AllocReturnsAFreshNonZeroIdentifier := by
  intro b c s t h hr he ht
  obtain ⟨⟨id, m'⟩, ha, rfl⟩ | ⟨kind, _, rfl⟩ := completeOrRaise_next.mp he
  · simpa using segAlloc_fresh (h.tableOk hr) ha
  · simp at ht

/-! ### The length of a live segment (R51, R54) -/

/-- A slot holds one segment. -/
theorem len_eq_of_same_slot {seg : List Slot} {n : Nat} {old new : Segment}
    (hold : seg[n]? = some (.mapped old)) (hnew : seg[n]? = some (.mapped new)) :
    new.len = old.len := by
  cases hold.symm.trans hnew
  rfl

/-- A slot that is mapped before and after one slot of the table is replaced: it is another slot and its
segment is as before, or it holds the new segment. -/
theorem mapped_of_set {seg : List Slot} {n k : Nat} {slot : Slot} {old new : Segment}
    (hold : seg[n]? = some (.mapped old)) (hnew : (seg.set k slot)[n]? = some (.mapped new)) :
    (k ≠ n ∧ new = old) ∨ (k = n ∧ slot = .mapped new) := by
  by_cases he : k = n
  · subst he
    rw [List.getElem?_set_self (List.getElem?_eq_some_iff.mp hold).1] at hnew
    exact .inr ⟨rfl, Option.some.inj hnew⟩
  · rw [List.getElem?_set_ne he, hold] at hnew
    exact .inl ⟨he, by simpa using hnew.symm⟩

section LiveLength

variable {cfg : Config} {m m' : Memory} {n : Nat} {old new : Segment}

theorem segWrite_live_len {id off v : Word} (h : m.segWrite id off v = .ok m')
    (hold : m.seg[n]? = some (.mapped old)) (hnew : m'.seg[n]? = some (.mapped new)) :
    new.len = old.len := by
  obtain ⟨sg, hl, _, rfl⟩ := segWrite_ok_iff.mp h
  obtain ⟨_, rfl⟩ | ⟨rfl, hslot⟩ := mapped_of_set hold hnew
  · rfl
  · rw [lookup_eq_some, hold] at hl
    cases hl
    cases hslot
    rfl

/-- An allocation maps only a slot that was not mapped: the pool is exact, or the slot is new. -/
theorem segAlloc_live_len {len id : Word} (hp : PoolExact m)
    (h : m.segAlloc cfg len = .ok (id, m'))
    (hold : m.seg[n]? = some (.mapped old)) (hnew : m'.seg[n]? = some (.mapped new)) :
    new.len = old.len := by
  obtain ⟨_, ⟨rest, hpool, rfl⟩ | ⟨_, _, _, rfl⟩⟩ := segAlloc_ok_iff.mp h
  · have hu := hp.unmapped id (by simp [hpool])
    obtain ⟨_, rfl⟩ | ⟨rfl, _⟩ := mapped_of_set hold hnew
    · rfl
    · simp [hold] at hu
  · rw [List.getElem?_append_left (List.getElem?_eq_some_iff.mp hold).1] at hnew
    exact len_eq_of_same_slot hold hnew

theorem segFree_live_len {id : Word} (h : m.segFree id = .ok m')
    (hold : m.seg[n]? = some (.mapped old)) (hnew : m'.seg[n]? = some (.mapped new)) :
    new.len = old.len := by
  obtain ⟨_, _, rfl⟩ := segFree_ok_iff.mp h
  obtain ⟨_, rfl⟩ | ⟨_, hslot⟩ := mapped_of_set hold hnew
  · rfl
  · cases hslot

/-- A copy may change the length of segment 0 only (R48). -/
theorem segDup_live_len {src : Word} (h : m.segDup cfg src = .ok m')
    (hold : m.seg[n]? = some (.mapped old)) (hnew : m'.seg[n]? = some (.mapped new)) :
    new.len = old.len ∨ n = 0 := by
  obtain ⟨sg, _, ⟨_, rfl⟩ | ⟨_, _, rfl⟩⟩ := segDup_ok_iff.mp h
  · exact .inl (len_eq_of_same_slot hold hnew)
  · obtain ⟨_, rfl⟩ | ⟨rfl, _⟩ := mapped_of_set hold hnew
    · exact .inl rfl
    · exact .inr rfl

/-- R51, R54: an execute transaction keeps the length of a live segment, but for segment 0 under a copy. -/
theorem after_live_len {q : Request} (hp : PoolExact m) (hq : q.issuer ≠ .hostLoader)
    (hold : m.seg[n]? = some (.mapped old)) (hnew : (m.after cfg q).seg[n]? = some (.mapped new)) :
    new.len = old.len ∨ (n = 0 ∧ ∃ src, q = .dup src) := by
  have same := len_eq_of_same_slot (new := new) hold
  cases q with
  | fetch off => exact .inl (same (by simpa using hnew))
  | read id off => exact .inl (same (by simpa using hnew))
  | releaseAll => exact .inl (same hnew)
  | loadInitial words => exact absurd rfl hq
  | write id off v =>
    rw [after_write] at hnew
    split at hnew
    · exact .inl (segWrite_live_len ‹_› hold hnew)
    · exact .inl (same hnew)
  | alloc len =>
    rw [after_alloc] at hnew
    split at hnew
    · exact .inl (segAlloc_live_len hp ‹_› hold hnew)
    · exact .inl (same hnew)
  | free id =>
    rw [after_free] at hnew
    split at hnew
    · exact .inl (segFree_live_len ‹_› hold hnew)
    · exact .inl (same hnew)
  | dup src =>
    rw [after_dup] at hnew
    split at hnew
    · exact (segDup_live_len ‹_› hold hnew).imp_right fun h0 => ⟨h0, src, rfl⟩
    · exact .inl (same hnew)

end LiveLength

/-- An instruction's transaction is the execute unit's (R63). -/
theorem executeRequest_issuer {s : State} {i : Instr} {q : Request}
    (h : executeRequest s i = some q) : q.issuer = .executeUnit := by
  cases i <;> cases h <;> rfl

/-- Only load-program issues a copy (R161). -/
theorem loadp_of_executeRequest_dup {s : State} {i : Instr} {src : Word}
    (h : executeRequest s i = some (.dup src)) : ∃ b c, i = .loadp b c := by
  cases i <;> cases h
  exact ⟨_, _, rfl⟩

/-- R51: no instruction shrinks the table. -/
theorem exec_size {i : Instr} {s t : State} (h : exec i s = .next t) :
    s.mem.seg.length ≤ t.mem.seg.length := by
  rw [exec_mem h]
  split
  · exact after_size _ (by simp [executeRequest_issuer ‹_›])
  · exact Nat.le_refl _

/-- R54: an instruction keeps the length of a live segment, but for segment 0 under load-program. -/
theorem exec_live_len {i : Instr} {s t : State} {n : Nat} {old new : Segment} (hp : PoolExact s.mem)
    (h : exec i s = .next t) (hold : s.mem.seg[n]? = some (.mapped old))
    (hnew : t.mem.seg[n]? = some (.mapped new)) :
    new.len = old.len ∨ (n = 0 ∧ ∃ b c, i = .loadp b c) := by
  rw [exec_mem h] at hnew
  split at hnew
  · rename_i q hq
    obtain hlen | ⟨h0, src, rfl⟩ := after_live_len hp (by simp [executeRequest_issuer hq]) hold hnew
    · exact .inl hlen
    · exact .inr ⟨h0, loadp_of_executeRequest_dup hq⟩
  · exact .inl (len_eq_of_same_slot hold hnew)

/-- In LOADING the table is empty (R39). -/
theorem State.Inv.mem_of_loading {s : State} (h : s.Inv) (hr : s.run = .loading) :
    s.mem = Memory.empty := by
  rw [h.atReset hr]
  rfl

/-- A RUNNING step changes the table only by an instruction. -/
theorem runningStep_mem {s t : State} (h : runningStep s = .next t) :
    t.mem = s.mem ∨ ∃ w i, s.mem.segRead 0 s.pc = .ok w ∧ decode w = .ok i ∧
      exec i s.executePhase = .next t := by
  obtain ⟨kind, _, rfl⟩ | ⟨w, _, _, rfl⟩ | hi := runningStep_cases h
  · exact .inl rfl
  · exact .inl rfl
  · exact .inr hi

/-- Settles O45: before the load the table is empty, and after it only instructions change
it. -/
theorem tableAndLiveSegmentsKeepTheirSize : Obligations.TableAndLiveSegmentsKeepTheirSize := by
  intro s t h hs
  obtain ⟨hr, _⟩ | ⟨hr, hrun⟩ := step_cases hs
  · have hseg : s.mem.seg = [] := by rw [h.mem_of_loading hr]; rfl
    simp [hseg]
  · obtain hm | ⟨w, i, hf, hd, he⟩ := runningStep_mem hrun
    · rw [hm]
      exact ⟨Nat.le_refl _, fun n sg sg' h1 h2 => .inl (len_eq_of_same_slot h1 h2)⟩
    · refine ⟨exec_size (s := s.executePhase) he, fun n sg sg' h1 h2 => ?_⟩
      obtain hlen | ⟨h0, b, c, rfl⟩ := exec_live_len (s := s.executePhase) h.pool he h1 h2
      · exact .inl hlen
      · exact .inr ⟨h0, w, b, c, hf, hd⟩

/-! ### A word written is the word fetched next (R68, R211) -/

/-- R44, R45: the word written at an offset is the word read there. -/
theorem segRead_segWrite {m m' : Memory} {id off v : Word} (hw : m.wf = true)
    (h : m.segWrite id off v = .ok m') : m'.segRead id off = .ok v := by
  obtain ⟨sg, hl, hlt, rfl⟩ := segWrite_ok_iff.mp h
  refine segRead_ok_iff.mpr ⟨sg.setWord off.toNat v, lookup_eq_some.mpr ?_, hlt, ?_⟩
  · simp [lookup_lt hl]
  · simp [wordAt_setWord (wf_of_lookup hw hl)]

/-- Settles O46: the store writes where the new pc points, and completes. -/
theorem storedWordIsFetchedNext : Obligations.StoredWordIsFetchedNext := by
  intro s w a b c sg hw hr hf hd ha hb hsg hlt
  have hwrite := segWrite_of_some s.x[b] s.x[c] (lookup_eq_some.mpr hsg : s.mem.lookup 0 = some sg)
  rw [if_pos hlt, ← ha] at hwrite
  refine ⟨_, (step_of_instr hr hf hd).trans (exec_sstore_of_ok (s := s.executePhase) hwrite), hr, ?_⟩
  have hpc : s.executePhase.pc = s.x[b] := by rw [executePhase_eq, hb]
  rw [setMem_pc, hpc, ← ha]
  exact segRead_segWrite hw hwrite

/-- R48: a copy completes when its source is live and, unless it is segment 0 itself, fits. -/
theorem segDup_completes {cfg : Config} {m : Memory} {src : Word} {sg : Segment}
    (h : m.lookup src = some sg) (hroom : src = 0 ∨ m.roomForProgram cfg sg = true) :
    ∃ m', m.segDup cfg src = .ok m' := by
  by_cases h0 : src = 0
  · exact ⟨m, segDup_zero h h0⟩
  · exact ⟨_, segDup_copies h h0 (hroom.resolve_left h0)⟩

/-- R48: after a copy segment 0 reads as its source did. -/
theorem segRead_zero_of_segDup {cfg : Config} {m m' : Memory} {src : Word} (off : Word)
    (hz : m.valid 0 = true) (h : m.segDup cfg src = .ok m') : m'.segRead 0 off = m.segRead src off := by
  obtain ⟨z, hz⟩ := valid_zero_iff.mp hz
  have hpos : 0 < m.seg.length := (List.getElem?_eq_some_iff.mp hz).1
  obtain ⟨sg, hl, ⟨rfl, rfl⟩ | ⟨_, _, rfl⟩⟩ := segDup_ok_iff.mp h
  · rfl
  · refine segRead_congr off ?_
    rw [hl, lookup_eq_some]
    simp [hpos]

/-- Settles O47: the copy completes, and the new pc is x[C]. -/
theorem loadedProgramIsFetchedNext : Obligations.LoadedProgramIsFetchedNext := by
  intro s w b c sg old v hr hf hd hsg hold hroom hv
  have hl : s.mem.lookup s.x[b] = some sg := lookup_eq_some.mpr hsg
  have hroom' : s.x[b] = 0 ∨ s.mem.roomForProgram s.cfg sg = true := by
    rwa [roomForProgram_iff, segLen_of_some (lookup_eq_some.mpr hold)]
  obtain ⟨m, hm⟩ := segDup_completes hl hroom'
  refine ⟨_, (step_of_instr hr hf hd).trans (exec_loadp_of_ok (s := s.executePhase) hm), hr, ?_⟩
  rw [redirect_mem, setMem_mem, redirect_pc,
    segRead_zero_of_segDup _ (valid_zero_iff.mpr ⟨old, hold⟩) hm]
  exact segRead_of_words hl hv

/-! ### The transactions of a step (R63, R64) -/

theorem transactions_of_words {s : State} {bytes : List Byte} {words : List Word}
    (hr : s.run = .loading) (hi : s.image = some bytes) (hw : imageWords bytes = .ok words) :
    s.transactions = [.loadInitial words] := by
  simp [State.transactions, hr, hi, hw]

theorem transactions_of_malformed {s : State} {bytes : List Byte} {kind : FaultKind}
    (hr : s.run = .loading) (hi : s.image = some bytes) (hw : imageWords bytes = .error kind) :
    s.transactions = [] := by
  simp [State.transactions, hr, hi, hw]

theorem transactions_of_no_image {s : State} (hr : s.run = .loading) (hi : s.image = none) :
    s.transactions = [] := by
  simp [State.transactions, hr, hi]

theorem transactions_of_fetch_fault {s : State} {kind : FaultKind} (hr : s.run = .running)
    (hf : s.mem.segRead 0 s.pc = .error kind) : s.transactions = [.fetch s.pc] := by
  simp only [State.transactions, State.fetch, hr, hf]

theorem transactions_of_invalid {s : State} {w : Word} {e : DecodeError} (hr : s.run = .running)
    (hf : s.mem.segRead 0 s.pc = .ok w) (hd : decode w = .error e) :
    s.transactions = [.fetch s.pc] := by
  simp only [State.transactions, State.fetch, executeRequests, hr, hf, hd]

theorem transactions_of_instr {s : State} {w : Word} {i : Instr} (hr : s.run = .running)
    (hf : s.mem.segRead 0 s.pc = .ok w) (hd : decode w = .ok i) :
    s.transactions = .fetch s.pc :: (executeRequest s i).toList := by
  simp only [State.transactions, State.fetch, executeRequests, hr, hf, hd]

theorem transactions_of_ended {s : State} (h : s.run = .halted ∨ s.run = .faulted) :
    s.transactions = [] := by
  rcases h with h | h <;> simp [State.transactions, h]

@[simp] theorem replay_nil (cfg : Config) (m : Memory) : m.replay cfg [] = m := rfl

@[simp] theorem replay_cons (cfg : Config) (m : Memory) (q : Request) (rest : List Request) :
    m.replay cfg (q :: rest) = (m.after cfg q).replay cfg rest := rfl

/-- The execute transaction reads registers only, so the latch and the pc do not matter to it. -/
theorem executeRequest_executePhase (s : State) (i : Instr) :
    executeRequest s.executePhase i = executeRequest s i := by
  cases i <;> rfl

/-- The table after an instruction is the replay of its transactions. -/
theorem exec_mem_replay {i : Instr} {s t : State} (h : exec i s.executePhase = .next t) :
    t.mem = s.mem.replay s.cfg (executeRequest s i).toList := by
  rw [exec_mem h, executeRequest_executePhase]
  cases executeRequest s i <;> rfl

/-- A load makes the table that its LOAD_INITIAL makes, and leaves it as it is when it faults. -/
theorem loadingStep_mem_replay {s t : State} (hr : s.run = .loading) (h : loadingStep s = .next t) :
    t.mem = s.mem.replay s.cfg s.transactions := by
  obtain ⟨bytes, hi, ht⟩ := loadingStep_cases h
  cases hw : imageWords bytes with
  | error kind =>
    rw [transactions_of_malformed hr hi hw]
    obtain ⟨m, hm, rfl⟩ | ⟨_, _, rfl⟩ := ht
    · simp [imageMemory, hw] at hm
    · rfl
  | ok words =>
    simp only [imageMemory, hw] at ht
    rw [transactions_of_words hr hi hw, replay_cons, replay_nil, after_loadInitial]
    obtain ⟨m, hm, rfl⟩ | ⟨_, hm, rfl⟩ := ht <;> simp [hm]

/-- A RUNNING step makes the table that its transactions make; a FETCH changes nothing. -/
theorem runningStep_mem_replay {s t : State} (hr : s.run = .running) (h : runningStep s = .next t) :
    t.mem = s.mem.replay s.cfg s.transactions := by
  obtain ⟨kind, hf, rfl⟩ | ⟨w, hf, hd, rfl⟩ | ⟨w, i, hf, hd, he⟩ := runningStep_cases h
  · simp [transactions_of_fetch_fault hr hf]
  · simp [transactions_of_invalid hr hf hd]
  · rw [transactions_of_instr hr hf hd, replay_cons, after_fetch]
    exact exec_mem_replay he

/-- Settles O48, by the run state in which the step happens. -/
theorem stepIsTheReplayOfItsTransactions : Obligations.StepIsTheReplayOfItsTransactions := by
  intro s t hs
  obtain ⟨hr, hl⟩ | ⟨hr, hrun⟩ := step_cases hs
  · exact loadingStep_mem_replay hr hl
  · exact runningStep_mem_replay hr hrun

/-- R64: in LOADING a step issues nothing, or one LOAD_INITIAL. -/
theorem transactions_loading {s : State} (hr : s.run = .loading) :
    s.transactions = [] ∨ ∃ words, s.transactions = [.loadInitial words] := by
  cases hi : s.image with
  | none => exact .inl (transactions_of_no_image hr hi)
  | some bytes =>
    cases hw : imageWords bytes with
    | error kind => exact .inl (transactions_of_malformed hr hi hw)
    | ok words => exact .inr ⟨words, transactions_of_words hr hi hw⟩

/-- R64: in RUNNING a step issues one FETCH and then nothing, or one transaction of the execute unit. -/
theorem transactions_running {s : State} (hr : s.run = .running) :
    s.transactions = [.fetch s.pc] ∨
      ∃ q : Request, q.issuer = .executeUnit ∧ s.transactions = [.fetch s.pc, q] := by
  cases hf : s.mem.segRead 0 s.pc with
  | error kind => exact .inl (transactions_of_fetch_fault hr hf)
  | ok w =>
    cases hd : decode w with
    | error e => exact .inl (transactions_of_invalid hr hf hd)
    | ok i =>
      rw [transactions_of_instr hr hf hd]
      cases hq : executeRequest s i with
      | none => exact .inl rfl
      | some q => exact .inr ⟨q, executeRequest_issuer hq, rfl⟩

/-- The arbiter grants the transactions of every step in their order. -/
theorem transactions_granted (s : State) : grantedInOrder s.run none s.transactions = true := by
  cases hr : s.run with
  | loading =>
    obtain h | ⟨words, h⟩ := transactions_loading hr <;> rw [h] <;> rfl
  | running =>
    obtain h | ⟨q, hq, h⟩ := transactions_running hr
    · rw [h]; rfl
    · have hfetch : (Request.fetch s.pc).issuer = .fetchUnit := rfl
      simp [h, grantedInOrder, arbiterGrants, hfetch, hq]
  | halted => rw [transactions_of_ended (.inl hr)]; rfl
  | faulted => rw [transactions_of_ended (.inr hr)]; rfl

/-- Settles O49, from the transactions of each run state. -/
theorem arbiterOrdersTheRequesters : Obligations.ArbiterOrdersTheRequesters := by
  refine fun s => ⟨transactions_granted s, fun hr => ?_, fun hr => ?_, transactions_of_ended⟩
  · obtain h | ⟨q, hq, h⟩ := transactions_running hr
    · exact ⟨[], h, by simp⟩
    · exact ⟨[q], h, by simpa using hq⟩
  · obtain h | ⟨words, h⟩ := transactions_loading hr
    · simp [h]
    · simp [h, Request.issuer]

end Sys2Proof.Machine

/-! # Proofs: the encoding (30_encoding.md) -/

namespace Sys2Proof

/-! ### What a word decodes to (R76, R77, R80) -/

theorem decode_of_standardInstr {w : Word} {i : Instr}
    (h : standardInstr (opcodeField w) (fieldA w) (fieldB w) (fieldC w) = some i) :
    decode w = .ok i := by
  unfold standardInstr at h
  unfold decode
  split at h <;> simp_all

theorem decode_of_opcode_13 {w : Word} (h : opcodeField w = 13) :
    decode w = .ok (.loadi (immediateFieldA w) (immediateField w)) := by
  simp only [decode, h]

/-- The operations of opcodes 0 to 12 are all of the standard layout's (R76). -/
theorem standardInstr_isSome {op : Nat} (h : op < 13) (a b c : Reg) :
    ∃ i, standardInstr op a b c = some i := by
  interval_cases op <;> exact ⟨_, rfl⟩

/-- R77: opcodes 14 and 15 are the invalid ones. -/
theorem decode_eq_error_iff {w : Word} :
    decode w = .error .unknownOpcode ↔ 14 ≤ opcodeField w := by
  constructor
  · intro h
    by_contra hlt
    obtain hop | hop : opcodeField w < 13 ∨ opcodeField w = 13 := by omega
    · obtain ⟨i, hi⟩ := standardInstr_isSome hop (fieldA w) (fieldB w) (fieldC w)
      simp [decode_of_standardInstr hi] at h
    · simp [decode_of_opcode_13 hop] at h
  · intro h
    cases hd : decode w with
    | error e => rfl
    | ok i =>
      obtain ⟨hop, _⟩ | ⟨hop, _⟩ := decode_cases hd <;> omega

/-- The opcode of a word is its instruction's (R76); that of a load-immediate is 13 and no other (R74). -/
theorem opcodeField_of_decode {w : Word} {i : Instr} (h : decode w = .ok i) :
    opcodeField w = i.opcode := by
  obtain ⟨_, hi⟩ | ⟨hop, rfl⟩ := decode_cases h
  · exact (standardInstr_opcode hi).1.symm
  · exact hop

/-- R74: opcode, A and imm make up the whole word of the load-immediate layout. -/
theorem toNat_eq_immediateLayout (w : Word) :
    w.toNat = opcodeField w * 2 ^ 28 + (immediateFieldA w).val * 2 ^ 25 + immediateField w := by
  have hw := w.isLt
  rw [opcodeField_eq, immediateFieldA, registerField_val, immediateField_eq]
  omega

/-! ### The canonical word (R81) -/

/-- Every instruction has one of the two layouts: the standard one of its opcode, or load-immediate's. -/
theorem instr_layout (i : Instr) :
    (∃ a b c, standardInstr i.opcode a b c = some i ∧ encode i = enc3 i.opcode a b c ∧
      codecEncode i = codecEnc3 i.opcode a b c) ∨
    ∃ a imm, i = .loadi a imm := by
  cases i with
  | loadi a imm => exact .inr ⟨a, imm, rfl⟩
  | cmov a b c | sload a b c | sstore a b c | add a b c | mul a b c | div a b c | nand a b c =>
    exact .inl ⟨a, b, c, rfl, rfl, rfl⟩
  | halt => exact .inl ⟨0, 0, 0, rfl, rfl, rfl⟩
  | alloc b c | loadp b c => exact .inl ⟨0, b, c, rfl, rfl, rfl⟩
  | free c | output c | input c => exact .inl ⟨0, 0, c, rfl, rfl, rfl⟩

/-- Settles O5, layout by layout: the decoder reads back the fields the encoder placed. -/
theorem decodeOfEncodeIsTheInstruction : Obligations.DecodeOfEncodeIsTheInstruction := by
  intro i hwf
  obtain ⟨a, b, c, hi, he, -⟩ | ⟨a, imm, rfl⟩ := instr_layout i
  · have hop := (standardInstr_opcode hi).2
    obtain ⟨fop, fa, fb, fc⟩ := enc3_fields (hop.trans (by decide)) a b c
    refine decode_of_standardInstr ?_
    rw [he, fop, fa, fb, fc]
    exact hi
  · obtain ⟨fop, fa, fimm⟩ := encLI_fields a (loadi_wellFormed hwf)
    rw [encode, decode_of_opcode_13 fop, fa, fimm]

/-- Settles O3. -/
theorem loadImmediateLayoutUsesEveryBit : Obligations.LoadImmediateLayoutUsesEveryBit := by
  intro w
  simp only [← opcodeField_eq_wordBits, ← immediateField_eq_wordBits, ← registerField_eq_registerBits]
  refine ⟨decode_of_opcode_13, fun a imm h => opcodeField_of_decode h, fun w' h h' hd => ?_⟩
  rw [decode_of_opcode_13 h, decode_of_opcode_13 h', Except.ok.injEq, Instr.loadi.injEq] at hd
  obtain ⟨ha, himm⟩ := hd
  apply BitVec.eq_of_toNat_eq
  rw [toNat_eq_immediateLayout w', toNat_eq_immediateLayout w, h, h', ha, himm]

/-- Settles O2. -/
theorem decodeReadsTheStandardLayout : Obligations.DecodeReadsTheStandardLayout := by
  intro w i h
  simp only [← opcodeField_eq_wordBits, ← registerField_eq_registerBits] at h
  exact decode_of_standardInstr h

/-- Settles O1, word by word: each is a closed word, and decoding computes. -/
theorem sampleWordsDecode : Obligations.SampleWordsDecode := by
  refine ⟨?_, ?_, ?_, ?_, ?_, ?_, ?_, ?_, ?_, ?_, ?_, ?_, ?_, ?_, ?_⟩ <;> decide

/-! ### The ignored bits (R73, R78) -/

/-- How many low bits of a word an operation uses, beside the opcode (R73, R74, R78); `usedBits_toNat` says
that `Instr.usedBits` is the mask of these. -/
def Instr.lowBits : Instr → Nat
  | .cmov _ _ _ | .sload _ _ _ | .sstore _ _ _ | .add _ _ _ | .mul _ _ _ | .div _ _ _ | .nand _ _ _ => 9
  | .halt => 0
  | .alloc _ _ | .loadp _ _ => 6
  | .free _ | .output _ | .input _ => 3
  | .loadi _ _ => 28

theorem lowBits_le (i : Instr) : i.lowBits ≤ 28 := by
  cases i <;> simp [Instr.lowBits]

theorem usedBits_toNat (i : Instr) : i.usedBits.toNat = 0xF0000000 ||| (2 ^ i.lowBits - 1) := by
  cases i <;> simp only [Instr.usedBits, Instr.lowBits] <;> decide

/-- A word under its operation's mask: the opcode and the low bits that count. -/
theorem and_usedBits_eq (w : Word) (i : Instr) :
    (w &&& i.usedBits).toNat = opcodeField w * 2 ^ 28 + w.toNat % 2 ^ i.lowBits := by
  have hw := w.isLt
  rw [and_usedBits_toNat w i.lowBits i.usedBits (usedBits_toNat i) (lowBits_le i), opcodeField_eq]
  omega

/-- R74: load-immediate uses every bit. -/
theorem and_usedBits_loadi (w : Word) (a : Reg) (imm : Nat) : w &&& (Instr.loadi a imm).usedBits = w :=
  BitVec.and_allOnes

/-- Words that agree on the used bits have the opcode and the used low bits in common. -/
theorem agree_of_and_usedBits_eq {w w' : Word} {i : Instr}
    (h : w' &&& i.usedBits = w &&& i.usedBits) :
    opcodeField w' = opcodeField w ∧ w'.toNat % 2 ^ i.lowBits = w.toNat % 2 ^ i.lowBits := by
  have hlow (v : Word) : v.toNat % 2 ^ i.lowBits < 2 ^ 28 :=
    (Nat.mod_lt _ (by positivity)).trans_le (Nat.pow_le_pow_right (by decide) (lowBits_le i))
  have := hlow w
  have := hlow w'
  have he := congrArg BitVec.toNat h
  rw [and_usedBits_eq, and_usedBits_eq] at he
  omega

/-- A field that lies within the low `n` bits is a function of them. -/
theorem field_of_mod_eq {x y n lsb width : Nat} (h : x % 2 ^ n = y % 2 ^ n) (hle : lsb + width ≤ n) :
    x / 2 ^ lsb % 2 ^ width = y / 2 ^ lsb % 2 ^ width := by
  have hd : 2 ^ (lsb + width) ∣ 2 ^ n := pow_dvd_pow 2 hle
  have hm : x % 2 ^ (lsb + width) = y % 2 ^ (lsb + width) := by
    rw [← Nat.mod_mod_of_dvd x hd, h, Nat.mod_mod_of_dvd y hd]
  rw [Nat.pow_add] at hm
  rw [← Nat.mod_mul_right_div_self, hm, Nat.mod_mul_right_div_self]

theorem registerField_of_mod_eq {w w' : Word} {n : Nat} (h : w'.toNat % 2 ^ n = w.toNat % 2 ^ n)
    (lsb : Nat) (hle : lsb + 3 ≤ n) : registerField w' lsb = registerField w lsb :=
  Fin.ext (by rw [registerField_val, registerField_val, field_of_mod_eq h hle])

/-- R78: the fields an operation ignores may hold anything. -/
theorem standardInstr_congr {op : Nat} {a b c a' b' c' : Reg} {i : Instr}
    (h : standardInstr op a b c = some i) (ha : 6 + 3 ≤ i.lowBits → a' = a)
    (hb : 3 + 3 ≤ i.lowBits → b' = b) (hc : 0 + 3 ≤ i.lowBits → c' = c) :
    standardInstr op a' b' c' = some i := by
  have hop := (standardInstr_opcode h).2
  interval_cases op <;> cases h <;> simp [Instr.lowBits] at ha hb hc <;> simp [standardInstr, *]

/-- R81: the canonical word of a standard-layout operation holds the used fields, and zeros elsewhere. -/
theorem encode_toNat_of_standardInstr {op : Nat} {a b c : Reg} {i : Instr}
    (h : standardInstr op a b c = some i) :
    (encode i).toNat = op * 2 ^ 28 + (a.val * 2 ^ 6 + b.val * 2 ^ 3 + c.val) % 2 ^ i.lowBits := by
  have ha := a.isLt
  have hb := b.isLt
  have hc := c.isLt
  have hop := (standardInstr_opcode h).2
  interval_cases op <;> cases h <;> rw [encode, enc3_toNat (by decide), Instr.lowBits] <;> omega

/-- The standard layout's fields are the low nine bits of the word (R72). -/
theorem low9_eq_fields (w : Word) :
    w.toNat % 2 ^ 9 = (fieldA w).val * 2 ^ 6 + (fieldB w).val * 2 ^ 3 + (fieldC w).val := by
  rw [fieldA, fieldB, fieldC, registerField_val, registerField_val, registerField_val]
  omega

theorem lowBits_le_of_standardInstr {op : Nat} {a b c : Reg} {i : Instr}
    (h : standardInstr op a b c = some i) : i.lowBits ≤ 9 := by
  have hop := (standardInstr_opcode h).2
  interval_cases op <;> cases h <;> simp [Instr.lowBits]

theorem wellFormed_of_standardInstr {op : Nat} {a b c : Reg} {i : Instr}
    (h : standardInstr op a b c = some i) : i.wellFormed = true := by
  have hop := (standardInstr_opcode h).2
  interval_cases op <;> cases h <;> rfl

/-- A decoded immediate is 25 bits long, so a decoded instruction is well formed (R75). -/
theorem wellFormed_of_decode {w : Word} {i : Instr} (h : decode w = .ok i) : i.wellFormed = true := by
  obtain ⟨_, hi⟩ | ⟨_, rfl⟩ := decode_cases h
  · exact wellFormed_of_standardInstr hi
  · exact decide_eq_true (immediateField_lt w)

/-- R73, R81: the canonical word of a decoded instruction is the word with the ignored bits cleared. -/
theorem encode_of_decode {w : Word} {i : Instr} (h : decode w = .ok i) :
    encode i = w &&& i.usedBits := by
  apply BitVec.eq_of_toNat_eq
  rw [and_usedBits_eq]
  obtain ⟨_, hi⟩ | ⟨hop, rfl⟩ := decode_cases h
  · rw [encode_toNat_of_standardInstr hi, ← low9_eq_fields,
      Nat.mod_mod_of_dvd _ (pow_dvd_pow 2 (lowBits_le_of_standardInstr hi))]
  · have hw := toNat_eq_immediateLayout w
    have hA := (immediateFieldA w).isLt
    have himm := immediateField_lt w
    rw [encode, encLI_toNat _ himm, Instr.lowBits]
    omega

/-- R73, R78: a word decodes as any word that agrees with it on the used bits. -/
theorem decode_of_and_usedBits_eq {w w' : Word} {i : Instr} (h : decode w = .ok i)
    (hand : w' &&& i.usedBits = w &&& i.usedBits) : decode w' = .ok i := by
  obtain ⟨hop', hlow⟩ := agree_of_and_usedBits_eq hand
  obtain ⟨_, hi⟩ | ⟨hop, rfl⟩ := decode_cases h
  · refine decode_of_standardInstr ?_
    rw [hop']
    exact standardInstr_congr hi (registerField_of_mod_eq hlow 6) (registerField_of_mod_eq hlow 3)
      (registerField_of_mod_eq hlow 0)
  · rw [and_usedBits_loadi, and_usedBits_loadi] at hand
    rwa [hand]

/-- Settles O6. -/
theorem decodedWordIsCanonicalUpToIgnoredBits : Obligations.DecodedWordIsCanonicalUpToIgnoredBits :=
  fun _ _ h => ⟨wellFormed_of_decode h, encode_of_decode h, fun _ => decode_of_and_usedBits_eq h⟩

end Sys2Proof

/-! ### The codec (R82 to R87) -/

namespace Sys2Proof.Codec

theorem inContract_iff {w lsb : Nat} : inContract w lsb = true ↔ w ≤ 64 ∧ w + lsb ≤ 64 := by
  simp [inContract]

/-- R84: a value that fits is a natural number below 2^w. -/
theorem fitsUnsigned_iff {v : Int} {w : Nat} :
    fitsUnsigned v w = true ↔ ∃ n : Nat, v = n ∧ n < 2 ^ w := by
  rw [fitsUnsigned, Bool.and_eq_true, decide_eq_true_eq, decide_eq_true_eq]
  constructor
  · rintro ⟨h0, hlt⟩
    lift v to Nat using h0
    exact ⟨v, rfl, by exact_mod_cast hlt⟩
  · rintro ⟨n, rfl, hlt⟩
    exact ⟨Int.natCast_nonneg n, by exact_mod_cast hlt⟩

theorem fitsSigned_iff {v : Int} {w : Nat} :
    fitsSigned v w = true ↔ -(2 ^ (w - 1)) ≤ v ∧ v < 2 ^ (w - 1) := by
  simp [fitsSigned]

section Insertion

variable {word word' : Container} {w lsb : Nat} {v : Int}

/-- R86 (D21): a zero-width insertion changes nothing, whatever the value. -/
theorem new_of_zero_width (hc : inContract 0 lsb = true) :
    newUnsigned word 0 lsb v = .ok word ∧ newSigned word 0 lsb v = .ok word := by
  simp [newUnsigned, newSigned, hc]

/-- R86 (D26): a call outside the contract is refused. -/
theorem refused_outside_contract (hc : inContract w lsb = false) :
    newUnsigned word w lsb v = .error .outsideContract ∧
      newSigned word w lsb v = .error .outsideContract ∧
      getUnsigned word w lsb = .error .outsideContract ∧
      getSigned word w lsb = .error .outsideContract := by
  simp [newUnsigned, newSigned, getUnsigned, getSigned, hc]

theorem newUnsigned_overflow (hc : inContract w lsb = true) (h0 : 0 < w)
    (hv : fitsUnsigned v w = false) : newUnsigned word w lsb v = .error .overflow := by
  simp [newUnsigned, hc, hv, h0.ne']

theorem newSigned_overflow (hc : inContract w lsb = true) (h0 : 0 < w)
    (hv : fitsSigned v w = false) : newSigned word w lsb v = .error .overflow := by
  simp [newSigned, hc, hv, h0.ne']

theorem newSigned_of_fits (hc : inContract w lsb = true) (h0 : 0 < w) (hv : fitsSigned v w = true) :
    newSigned word w lsb v = .ok (replaceField word w lsb (v % 2 ^ w).toNat) := by
  simp [newSigned, hc, hv, h0.ne']

theorem toNat_emod_lt (v : Int) (w : Nat) : (v % 2 ^ w).toNat < 2 ^ w := by
  have h : v % 2 ^ w < 2 ^ w := Int.emod_lt_of_pos v (by positivity)
  have h0 : 0 ≤ v % 2 ^ w := Int.emod_nonneg v (by positivity)
  zify
  rwa [Int.toNat_of_nonneg h0]

/-- R85: an insertion that succeeds replaces the field, or changes nothing. -/
theorem replaceField_of_new_ok
    (h : newUnsigned word w lsb v = .ok word' ∨ newSigned word w lsb v = .ok word') :
    word' = word ∨ w + lsb ≤ 64 ∧ ∃ n < 2 ^ w, word' = replaceField word w lsb n := by
  cases hc : inContract w lsb with
  | false =>
    obtain ⟨hu, hs, -⟩ := refused_outside_contract (word := word) (v := v) hc
    simp [hu, hs] at h
  | true =>
    obtain rfl | h0 := Nat.eq_zero_or_pos w
    · obtain ⟨hu, hs⟩ := new_of_zero_width (word := word) (v := v) hc
      rw [hu, hs, or_self] at h
      exact .inl (Except.ok.inj h).symm
    · refine .inr ⟨(inContract_iff.mp hc).2, ?_⟩
      obtain h | h := h
      · cases hv : fitsUnsigned v w with
        | false => simp [newUnsigned_overflow hc h0 hv] at h
        | true =>
          obtain ⟨n, rfl, hn⟩ := fitsUnsigned_iff.mp hv
          rw [newUnsigned_of_lt hc h0.ne' hn] at h
          exact ⟨n, hn, (Except.ok.inj h).symm⟩
      · cases hv : fitsSigned v w with
        | false => simp [newSigned_overflow hc h0 hv] at h
        | true =>
          rw [newSigned_of_fits hc h0 hv] at h
          exact ⟨_, toNat_emod_lt v w, (Except.ok.inj h).symm⟩

end Insertion

/-- R83: the signed reading of the two's-complement bits of a value that fits is the value. -/
theorem signedOf_toNat_emod {v : Int} {w : Nat} (h0 : 0 < w) (hv : fitsSigned v w = true) :
    signedOf w (v % 2 ^ w).toNat = v := by
  obtain ⟨hlo, hhi⟩ := fitsSigned_iff.mp hv
  obtain ⟨k, rfl⟩ : ∃ k, w = k + 1 := ⟨w - 1, by omega⟩
  rw [Nat.add_sub_cancel] at hlo hhi
  have hp : (2 : Int) ^ (k + 1) = 2 * 2 ^ k := by ring
  have hcast : ((2 ^ k : Nat) : Int) = 2 ^ k := by push_cast; rfl
  have hmod : v % 2 ^ (k + 1) = if 0 ≤ v then v else v + 2 ^ (k + 1) := by
    split
    · exact Int.emod_eq_of_lt ‹_› (by omega)
    · rw [← Int.add_emod_right]
      exact Int.emod_eq_of_lt (by omega) (by omega)
  rw [signedOf, hmod, Nat.add_sub_cancel]
  split <;> split <;> omega

theorem getUnsigned_of_inContract {word : Container} {w lsb : Nat} (hc : inContract w lsb = true) :
    getUnsigned word w lsb = .ok (field word w lsb) := if_pos hc

theorem getSigned_of_inContract {word : Container} {w lsb : Nat} (hc : inContract w lsb = true) :
    getSigned word w lsb = .ok (signedOf w (field word w lsb)) := if_pos hc

/-- Settles O7: at width 0 the only value that fits is 0, and at any other the field is replaced. -/
theorem codecReadsBackWhatItInserts : Obligations.CodecReadsBackWhatItInserts := by
  intro word w lsb v hc hv
  obtain ⟨n, rfl, hn⟩ := fitsUnsigned_iff.mp hv
  rw [Int.toNat_natCast]
  obtain rfl | h0 := Nat.eq_zero_or_pos w
  · refine ⟨word, (new_of_zero_width hc).1, ?_⟩
    have hf := field_lt word 0 lsb
    rw [getUnsigned_of_inContract hc]
    congr 1
    omega
  · refine ⟨_, newUnsigned_of_lt hc h0.ne' hn, ?_⟩
    rw [getUnsigned_of_inContract hc, field_replaceField word (inContract_iff.mp hc).2 hn]

/-- Settles O8, clause by clause. -/
theorem codecInsertsOnlyIntoItsField : Obligations.CodecInsertsOnlyIntoItsField := by
  refine fun word w lsb v => ⟨fun word' h k hk => ?_, fun hc h0 hv => ?_, newUnsigned_overflow,
    newSigned_overflow, fun hc h0 => ?_, refused_outside_contract⟩
  · obtain rfl | ⟨hle, n, hn, rfl⟩ := replaceField_of_new_ok h
    · rfl
    · exact getLsbD_replaceField word hle hn k hk
  · refine ⟨_, newSigned_of_fits hc h0 hv, ?_⟩
    rw [getSigned_of_inContract hc,
      field_replaceField word (inContract_iff.mp hc).2 (toNat_emod_lt v w), signedOf_toNat_emod h0 hv]
  · subst h0
    exact new_of_zero_width hc

end Sys2Proof.Codec

/-! ### The encoder built with the codec (R81, R85) -/

namespace Sys2Proof

open Codec

/-- The container in which an encoding starts (R81). -/
theorem zero_toNat : (0 : Container).toNat = 0 := rfl

/-- Inserting the four fields gives the formula's word: each is inserted into zeros (R81). -/
theorem codecEnc3_eq {op : Nat} (h : op < 16) (a b c : Reg) :
    codecEnc3 op a b c = .ok ((enc3 op a b c).setWidth 64) := by
  have ha := a.isLt
  have hb := b.isLt
  have hc := c.isLt
  simp only [codecEnc3, newUnsigned_of_lt (w := 4) (lsb := 28) rfl (by decide) h,
    newUnsigned_of_lt (w := 3) (lsb := 6) rfl (by decide) a.isLt,
    newUnsigned_of_lt (w := 3) (lsb := 3) rfl (by decide) b.isLt,
    newUnsigned_of_lt (w := 3) (lsb := 0) rfl (by decide) c.isLt, bind, Except.bind]
  congr 1
  apply BitVec.eq_of_toNat_eq
  rw [BitVec.toNat_setWidth, enc3_toNat h, replaceField_toNat _ (by decide) hc,
    replaceField_toNat _ (by decide) hb, replaceField_toNat _ (by decide) ha,
    replaceField_toNat _ (by decide) h, zero_toNat]
  omega

theorem newUnsigned_opcode_13 : newUnsigned 0 4 28 13 = .ok (replaceField 0 4 28 13) := rfl

/-- Inserting the three fields gives the formula's word: each is inserted into zeros (R81). -/
theorem codecEncLI_eq (a : Reg) {imm : Nat} (h : imm < 2 ^ 25) :
    codecEncLI a imm = .ok ((encLI a imm).setWidth 64) := by
  have ha := a.isLt
  have h13 : 13 < 2 ^ 4 := by decide
  simp only [codecEncLI, newUnsigned_opcode_13,
    newUnsigned_of_lt (w := 3) (lsb := 25) rfl (by decide) a.isLt,
    newUnsigned_of_lt (w := 25) (lsb := 0) rfl (by decide) h, bind, Except.bind]
  congr 1
  apply BitVec.eq_of_toNat_eq
  rw [BitVec.toNat_setWidth, encLI_toNat a h, replaceField_toNat _ (by decide) h,
    replaceField_toNat _ (by decide) ha, replaceField_toNat _ (by decide) h13, zero_toNat]
  omega

/-- R81, R85: an immediate of 2^25 or more does not fit its field. -/
theorem codecEncLI_overflow (a : Reg) {imm : Nat} (h : 2 ^ 25 ≤ imm) :
    codecEncLI a imm = .error .overflow := by
  have hfits : fitsUnsigned imm 25 = false := by
    rw [Bool.eq_false_iff, ne_eq, fitsUnsigned_iff]
    rintro ⟨n, hn, hlt⟩
    omega
  simp only [codecEncLI, newUnsigned_opcode_13,
    newUnsigned_of_lt (w := 3) (lsb := 25) rfl (by decide) a.isLt,
    newUnsigned_overflow (w := 25) (lsb := 0) rfl (by decide) hfits, bind, Except.bind]

/-- R81: load-immediate is the one instruction that can be ill formed. -/
theorem loadi_of_not_wellFormed {i : Instr} (h : i.wellFormed = false) :
    ∃ a imm, i = .loadi a imm ∧ 2 ^ 25 ≤ imm := by
  cases i with
  | loadi a imm => exact ⟨a, imm, rfl, Nat.le_of_not_lt (of_decide_eq_false h)⟩
  | _ => exact absurd h (by simp [Instr.wellFormed])

/-- Settles O9, layout by layout. -/
theorem codecEncoderAgreesWithTheFormula : Obligations.CodecEncoderAgreesWithTheFormula := by
  refine fun i => ⟨fun hwf => ?_, fun hwf => ?_⟩
  · obtain ⟨a, b, c, hi, he, hce⟩ | ⟨a, imm, rfl⟩ := instr_layout i
    · have hop := (standardInstr_opcode hi).2
      rw [hce, he, codecEnc3_eq (hop.trans (by decide))]
    · exact codecEncLI_eq a (loadi_wellFormed hwf)
  · obtain ⟨a, imm, rfl, himm⟩ := loadi_of_not_wellFormed hwf
    exact codecEncLI_overflow a himm

end Sys2Proof

namespace Sys2Proof.Machine

/-- Settles O4: the step's fetched word is invalid, and decoding fails before any instruction runs. -/
theorem onlyOpcodes14And15AreInvalid : Obligations.OnlyOpcodes14And15AreInvalid := by
  intro w
  rw [← opcodeField_eq_wordBits]
  refine ⟨decode_eq_error_iff, ?_, fun s hr hf hop => ?_⟩
  · have hw := w.isLt
    rw [opcodeField_eq]
    omega
  · refine ⟨raiseAt .unknownOpcode s.pc s.executePhase, ?_, rfl, rfl⟩
    rw [step_of_running hr, runningStep_of_word hf, executeWord, decode_eq_error_iff.mpr hop]
    rfl

/-- Writing a register's own value changes nothing. -/
@[simp] theorem setReg_reg (s : State) (r : Reg) : s.setReg r (s.reg r) = s := by
  simp [State.setReg, reg_eq]

theorem aluNand_self (v : Word) : aluNand v v = ~~~v := by
  rw [aluNand, BitVec.and_self]

theorem exec_nop (s : State) : exec .nop s = .next s := by
  simp [exec, execCmov]

theorem exec_bitNot (a b : Reg) (s : State) :
    exec (.bitNot a b) s = .next (s.setReg a (~~~s.reg b)) := by
  simp only [exec, execNand, aluNand_self]

/-- R161: load-program from the live segment 0 only sets pc. -/
theorem exec_loadp_zero {b c : Reg} {s : State} {sg : Segment} (hb : s.reg b = 0)
    (h : s.mem.lookup 0 = some sg) : exec (.loadp b c) s = .next (s.redirect (s.reg c)) :=
  exec_loadp_of_ok (segDup_zero (hb ▸ h) hb)

/-- Settles O10. -/
theorem pseudoInstructionsAreExact : Obligations.PseudoInstructionsAreExact := by
  refine fun a b c s => ⟨rfl, rfl, rfl, exec_nop s, exec_bitNot a b s, fun h0 hlive => ?_⟩
  rw [notMapped_iff, ← ne_eq, Option.ne_none_iff_exists'] at hlive
  obtain ⟨sg, hsg⟩ := hlive
  exact exec_loadp_zero h0 hsg

end Sys2Proof.Machine

/-! # Proofs: the engine (40_engine.md) -/

namespace Sys2Proof.Machine

/-! ### The step of a decoded instruction (R101 to R106) -/

/-- Settles O11. -/
theorem stepRunsTheDecodedInstruction : Obligations.StepRunsTheDecodedInstruction := by
  intro s w i hr hf hd
  rw [step_of_instr hr hf hd, executePhase_eq]

theorem executePhase_pc_eq_add_one (s : State) : s.executePhase.pc = s.pc + 1 := by
  rw [executePhase_eq]

/-- Settles O15: the instruction runs in the execute phase, where pc is already the old one plus 1. -/
theorem onlyLoadProgramRedirectsPc : Obligations.OnlyLoadProgramRedirectsPc := by
  intro s t w i hr hf hd hs ht
  rw [step_of_instr hr hf hd] at hs
  obtain ⟨b, c, rfl, hpc⟩ | ⟨hne, hpc⟩ := exec_pc hs (by simp [ht])
  · refine ⟨fun b' c' he => ?_, fun hne => absurd rfl (hne b c)⟩
    cases he
    rw [hpc, reg_executePhase, reg_eq]
  · exact ⟨fun b c he => absurd he (hne b c), fun _ => hpc.trans (executePhase_pc_eq_add_one s)⟩

/-! ### The fault report (R107, R181) -/

/-- R107, R181: a fault records its kind and offset, and keeps what can be observed; where the latch and
pc stand when it is raised does not matter. -/
theorem faultRecorded_raiseAt (kind : FaultKind) (offset : Word) (s : State) (latch pc : Word) :
    FaultRecorded kind offset s (raiseAt kind offset { s with ipc := latch, pc := pc }) :=
  ⟨rfl, rfl, rfl, rfl, rfl, rfl, rfl, rfl, rfl⟩

theorem faultRecorded_latch (kind : FaultKind) (s : State) :
    FaultRecorded kind s.pc s (raiseAt kind s.pc s.latch) :=
  faultRecorded_raiseAt kind s.pc s s.pc s.pc

theorem faultRecorded_executePhase (kind : FaultKind) (s : State) :
    FaultRecorded kind s.pc s (raiseAt kind s.pc s.executePhase) :=
  faultRecorded_raiseAt kind s.pc s s.pc _

/-- Settles O12: with segment 0 mapped a fetch checks the offset only. -/
theorem fetchPastSegment0IsOutOfBounds : Obligations.FetchPastSegment0IsOutOfBounds := by
  intro s sg hr hsg
  have hread := segRead_of_some s.pc (lookup_eq_some.mpr hsg : s.mem.lookup 0 = some sg)
  refine ⟨?_, fun hle => ?_⟩
  · rw [hread]
    split <;> simp
  · rw [if_neg (Nat.not_lt.mpr hle)] at hread
    rw [step_of_running hr, runningStep_of_fault hread]
    exact ⟨_, rfl, faultRecorded_latch .outOfBounds s⟩

/-! ### Precision (R107) -/

/-- A completed instruction does not leave a RUNNING machine FAULTED. -/
theorem Completed.run_ne_faulted {i : Instr} {s t : State} (h : Completed i s t)
    (hr : s.run = .running) : t.run ≠ .faulted := by
  obtain hrun | ⟨_, hrun⟩ := h.run <;> simp [hrun, hr]

/-- A RUNNING step always answers a next state: the fetch, the decoder or the instruction gives it. -/
theorem runningStep_answers_next (s : State) : ∃ t, runningStep s = .next t := by
  cases hf : s.mem.segRead 0 s.pc with
  | error kind => exact ⟨_, runningStep_of_fault hf⟩
  | ok w =>
    rw [runningStep_of_word hf, executeWord]
    cases decode w with
    | error e => exact ⟨_, rfl⟩
    | ok i => exact exec_answers_next i s.executePhase

/-- R107: a RUNNING step that ends FAULTED changed nothing but the fault report, whether the fetch, the
decoder or the instruction raised the fault. -/
theorem faultRecorded_of_runningStep {s t : State} (hr : s.run = .running)
    (h : runningStep s = .next t) (ht : t.run = .faulted) :
    ∃ kind, FaultRecorded kind s.pc s t := by
  obtain ⟨kind, _, rfl⟩ | ⟨w, _, _, rfl⟩ | ⟨w, i, _, _, he⟩ := runningStep_cases h
  · exact ⟨kind, faultRecorded_latch kind s⟩
  · exact ⟨_, faultRecorded_executePhase .unknownOpcode s⟩
  · obtain hc | ⟨kind, rfl⟩ := exec_cases he
    · exact absurd ht (hc.run_ne_faulted hr)
    · exact ⟨kind, faultRecorded_executePhase kind s⟩

/-- Settles O16: the step answers a next state, which is FAULTED or not. -/
theorem faultingStepIsPrecise : Obligations.FaultingStepIsPrecise := by
  intro s hr
  simp only [SafeStep, step_of_running hr]
  refine ⟨?_, fun t h ht => faultRecorded_of_runningStep hr h ht⟩
  obtain ⟨t, h⟩ := runningStep_answers_next s
  by_cases ht : t.run = .faulted
  · obtain ⟨kind, hk⟩ := faultRecorded_of_runningStep hr h ht
    exact .inr ⟨t, kind, h, hk⟩
  · exact .inl ⟨t, h, ht⟩

end Sys2Proof.Machine

/-! # Proofs: the register operations (41_register_ops.md) -/

namespace Sys2Proof.Machine

/-- The write `x[r] <- v` as a record update: only `x` changes (R12, R20). -/
theorem setReg_eq (s : State) (r : Reg) (v : Word) : s.setReg r v = { s with x := s.x.set r v } := rfl

/-! ### Conditional-move (R120) -/

@[simp] theorem isNonZero_iff {v : Word} : isNonZero v = true ↔ v ≠ 0 := decide_eq_true_iff

theorem exec_cmov_of_ne_zero {c : Reg} {s : State} (a b : Reg) (h : s.reg c ≠ 0) :
    exec (.cmov a b c) s = .next (s.setReg a (s.reg b)) := by
  rw [exec, execCmov, if_pos (isNonZero_iff.mpr h)]

theorem exec_cmov_of_eq_zero {c : Reg} {s : State} (a b : Reg) (h : s.reg c = 0) :
    exec (.cmov a b c) s = .next s := by
  rw [exec, execCmov, if_neg fun hc => isNonZero_iff.mp hc h]

/-- Settles O18, by the two answers of the test. -/
theorem cmovMovesWhenTheConditionIsNonZero : Obligations.CmovMovesWhenTheConditionIsNonZero := by
  intro a b c s
  rw [← reg_eq s b, ← reg_eq s c, ← setReg_eq]
  exact ⟨exec_cmov_of_ne_zero a b, exec_cmov_of_eq_zero a b⟩

/-! ### Load-immediate (R121) -/

theorem exec_loadi (a : Reg) (imm : Nat) (s : State) :
    exec (.loadi a imm) s = .next (s.setReg a (immediateOperand imm)) := rfl

/-- R75: an immediate read from a word's bits is those bits, zero-extended. -/
theorem immediateOperand_wordBits (w : Word) (hi lo : Nat) :
    immediateOperand (wordBits w hi lo) = (w.extractLsb hi lo).zeroExtend 32 :=
  BitVec.ofNat_toNat 32 (w.extractLsb hi lo)

/-- Settles O19: O3 gives the decoded instruction, whose operand is the zero-extended field. -/
theorem loadiWritesTheZeroExtendedImmediate : Obligations.LoadiWritesTheZeroExtendedImmediate := by
  intro w s hop
  obtain ⟨hdecode, -, -⟩ := loadImmediateLayoutUsesEveryBit w
  refine ⟨hdecode hop, ?_⟩
  rw [exec_loadi, immediateOperand_wordBits, setReg_eq]

end Sys2Proof.Machine

/-! # Proofs: the arithmetic operations (42_arithmetic.md)

The model writes the operations with naturals reduced mod 2^32 (R11); the library's bit-vector
operations are these, so its laws hold of the machine's. -/

namespace Sys2Proof.Machine

/-! ### The operations as bit-vector operations (R130 to R133) -/

theorem aluAdd_eq (b c : Word) : aluAdd b c = b + c := (BitVec.add_def b c).symm

theorem aluMul_eq (b c : Word) : aluMul b c = b * c := by
  apply BitVec.eq_of_toNat_eq
  rw [aluMul, BitVec.toNat_ofNat, BitVec.toNat_mul]

theorem aluDiv_of_ne_zero (b : Word) {c : Word} (h : c ≠ 0) : aluDiv b c = .ok (b / c) := by
  rw [aluDiv, if_neg h, BitVec.udiv_def]

theorem getLsbD_aluNand (b c : Word) {k : Nat} (h : k < 32) :
    (aluNand b c).getLsbD k = !(b.getLsbD k && c.getLsbD k) := by
  simp [aluNand, h]

/-! ### The instructions -/

theorem exec_add (a b c : Reg) (s : State) :
    exec (.add a b c) s = .next (s.setReg a (s.reg b + s.reg c)) := by
  rw [exec, execAdd, aluAdd_eq]

theorem exec_mul (a b c : Reg) (s : State) :
    exec (.mul a b c) s = .next (s.setReg a (s.reg b * s.reg c)) := by
  rw [exec, execMul, aluMul_eq]

theorem exec_div_of_ne_zero (a b : Reg) {c : Reg} {s : State} (h : s.reg c ≠ 0) :
    exec (.div a b c) s = .next (s.setReg a (s.reg b / s.reg c)) := by
  rw [exec, execDiv, aluDiv_of_ne_zero _ h, completeOrRaise_ok]

theorem exec_nand (a b c : Reg) (s : State) :
    exec (.nand a b c) s = .next (s.setReg a (aluNand (s.reg b) (s.reg c))) := rfl

/-- Settles O20. -/
theorem addWritesTheSumModulo2Pow32 : Obligations.AddWritesTheSumModulo2Pow32 :=
  fun a b c s => ⟨_, exec_add a b c s, BitVec.toNat_add (s.reg b) (s.reg c)⟩

/-- Settles O21. -/
theorem mulWritesTheProductModulo2Pow32 : Obligations.MulWritesTheProductModulo2Pow32 :=
  fun a b c s => ⟨_, exec_mul a b c s, BitVec.toNat_mul (s.reg b) (s.reg c)⟩

/-- Settles O22: the quotient of two words is a word, so nothing is reduced. -/
theorem divWritesTheUnsignedQuotient : Obligations.DivWritesTheUnsignedQuotient :=
  fun a b _ _ h => ⟨_, exec_div_of_ne_zero a b h, BitVec.toNat_udiv⟩

/-- Settles O23. -/
theorem nandWritesTheComplementOfTheAnd : Obligations.NandWritesTheComplementOfTheAnd :=
  fun a b c s => ⟨_, exec_nand a b c s, fun _ hk => getLsbD_aluNand (s.reg b) (s.reg c) hk⟩

/-! ### What a program makes of the four (R134) -/

/-- Adding the complement and 1 subtracts, as ~c + 1 is -c. -/
theorem sub_of_aluAdd_aluNand (b c : Word) : aluAdd (aluAdd b (aluNand c c)) 1 = b - c := by
  rw [aluAdd_eq, aluAdd_eq, aluNand_self, BitVec.add_assoc, BitVec.sub_eq_add_neg,
    BitVec.neg_eq_not_add]
  rfl

/-- The product of quotient and divisor is at most the dividend, so neither it nor the difference
wraps. -/
theorem toNat_sub_div_mul (b c : Word) : (b - b / c * c).toNat = b.toNat % c.toNat := by
  have hle : (b / c).toNat * c.toNat ≤ b.toNat := by
    rw [BitVec.toNat_udiv]
    exact Nat.div_mul_le_self b.toNat c.toNat
  have hmul : (b / c * c).toNat = (b / c).toNat * c.toNat :=
    BitVec.toNat_mul_of_lt (hle.trans_lt b.isLt)
  rw [BitVec.toNat_sub_of_le (BitVec.le_def.mpr (hmul.trans_le hle)), hmul, BitVec.toNat_udiv,
    Nat.mod_eq_sub_div_mul]

/-- The power of two that is a word's single bit k. -/
theorem ofNat_two_pow (k : Nat) : BitVec.ofNat 32 (2 ^ k) = BitVec.twoPow 32 k := by
  apply BitVec.eq_of_toNat_eq
  rw [BitVec.toNat_ofNat, BitVec.toNat_twoPow]

theorem twoPow_ne_zero {k : Nat} (h : k < 32) : BitVec.twoPow 32 k ≠ 0 := by
  intro h0
  have hbit : (BitVec.twoPow 32 k).getLsbD k = true := by simp [h]
  simp [h0] at hbit

theorem aluMul_two_pow (b : Word) (k : Nat) : aluMul b (BitVec.ofNat 32 (2 ^ k)) = b <<< k := by
  rw [aluMul_eq, ofNat_two_pow, BitVec.mul_twoPow_eq_shiftLeft]

theorem aluDiv_two_pow (b : Word) {k : Nat} (h : k < 32) :
    aluDiv b (BitVec.ofNat 32 (2 ^ k)) = .ok (b >>> k) := by
  rw [ofNat_two_pow, aluDiv_of_ne_zero b (twoPow_ne_zero h), BitVec.udiv_twoPow_eq_of_lt h]

/-- Settles O32: subtraction, the remainder by subtraction, and the shifts. -/
theorem arithmeticLawsOfTheFourOperations : Obligations.ArithmeticLawsOfTheFourOperations := by
  intro b c
  refine ⟨sub_of_aluAdd_aluNand b c, fun hc => ⟨b / c, aluDiv_of_ne_zero b hc, ?_⟩,
    fun k hk => ⟨aluMul_two_pow b k, aluDiv_two_pow b hk⟩⟩
  rw [sub_of_aluAdd_aluNand, aluMul_eq, toNat_sub_div_mul]

end Sys2Proof.Machine

/-! # Proofs: segment access (43_segment_access.md) -/

namespace Sys2Proof.Machine

/-- R140: a load whose read succeeds completes with the word read. -/
theorem exec_sload_of_ok {b c : Reg} {s : State} {v : Word} (a : Reg)
    (h : s.mem.segRead (s.reg b) (s.reg c) = .ok v) :
    exec (.sload a b c) s = .next (s.setReg a v) := by
  rw [exec, execSload, h, completeOrRaise_ok]

/-- Settles O24: the read succeeds, so the load completes. -/
theorem sloadReadsTheAddressedWord : Obligations.SloadReadsTheAddressedWord :=
  fun a _ _ _ _ _ hsg hv => exec_sload_of_ok a (segRead_of_words (lookup_eq_some.mpr hsg) hv)

/-- R45: a write changes what is read at its own address only: another identifier names the segment it
named, and the written segment keeps its length and its other words. -/
theorem segRead_segWrite_other {m m' : Memory} {id id' off off' v : Word} (hw : m.wf = true)
    (h : m.segWrite id off v = .ok m') (hne : id' ≠ id ∨ off' ≠ off) :
    m'.segRead id' off' = m.segRead id' off' := by
  obtain ⟨sg, hl, -, rfl⟩ := segWrite_ok_iff.mp h
  by_cases hid : id' = id
  · subst hid
    have hoff : off'.toNat ≠ off.toNat :=
      fun e => hne.resolve_left (not_not_intro rfl) (BitVec.eq_of_toNat_eq e)
    have hl' : (m.setSlot id' (.mapped (sg.setWord off.toNat v))).lookup id' =
        some (sg.setWord off.toNat v) := lookup_eq_some.mpr (by simp [lookup_lt hl])
    rw [segRead_of_some off' hl', segRead_of_some off' hl, setWord_len,
      wordAt_setWord (wf_of_lookup hw hl), if_neg hoff]
  · exact segRead_set_other off' (lookup_lt hl) hid

/-- R45: a write replaces a slot; it keeps the pool and the table size. -/
theorem segWrite_pool_size {m m' : Memory} {id off v : Word} (h : m.segWrite id off v = .ok m') :
    m'.pool = m.pool ∧ m'.seg.length = m.seg.length := by
  obtain ⟨sg, -, -, rfl⟩ := segWrite_ok_iff.mp h
  exact ⟨rfl, List.length_set⟩

/-- Settles O25: the write succeeds, so the store completes with the table it gives. -/
theorem sstoreWritesTheAddressedWord : Obligations.SstoreWritesTheAddressedWord := by
  intro a b c s sg hw hsg hlt
  obtain ⟨m, hwrite⟩ : ∃ m, s.mem.segWrite s.x[a] s.x[b] s.x[c] = .ok m :=
    ⟨_, segWrite_ok_iff.mpr ⟨sg, lookup_eq_some.mpr hsg, hlt, rfl⟩⟩
  exact ⟨m, exec_sstore_of_ok hwrite, segRead_segWrite hw hwrite,
    fun _ _ hne => segRead_segWrite_other hw hwrite hne, segWrite_pool_size hwrite⟩

end Sys2Proof.Machine

/-! # Proofs: segment management (44_segment_management.md) -/

namespace Sys2Proof.Machine

/-! ### SegAlloc (R46, R52) -/

/-- R46, R55: the table size, below MAX_SEGMENTS, is an identifier. -/
theorem toNat_ofNat_size {cfg : Config} {m : Memory} (h : m.size < cfg.maxSegments) :
    (BitVec.ofNat 32 m.size).toNat = m.seg.length :=
  (BitVec.toNat_ofNat _ _).trans (Nat.mod_eq_of_lt (Nat.lt_of_lt_of_le h cfg.maxSegments_le))

/-- R46: within the limits an allocation succeeds when the pool has an identifier or the table has room. -/
theorem segAlloc_completes {cfg : Config} {m : Memory} {len : Word}
    (hr : m.roomFor cfg len.toNat = true) (hs : m.pool = [] → m.seg.length < cfg.maxSegments) :
    ∃ id m', m.segAlloc cfg len = .ok (id, m') := by
  cases hp : m.pool with
  | cons top rest => exact ⟨_, _, segAlloc_of_pool hr hp⟩
  | nil => exact ⟨_, _, segAlloc_ok_iff.mpr ⟨hr, .inr ⟨hp, hs hp, rfl, rfl⟩⟩⟩

section

variable {cfg : Config} {m m' : Memory} {len id : Word}

/-- R46: from a pool that is not empty its top is given and leaves the pool; the table keeps its size. -/
theorem segAlloc_from_pool {top : Word} {rest : List Word} (h : m.segAlloc cfg len = .ok (id, m'))
    (hp : m.pool = top :: rest) :
    id = top ∧ m'.pool = rest ∧ m'.seg.length = m.seg.length := by
  obtain ⟨-, ⟨rest', hp', rfl⟩ | ⟨hp', -⟩⟩ := segAlloc_ok_iff.mp h
  · obtain ⟨rfl, rfl⟩ := List.cons.inj (hp.symm.trans hp')
    exact ⟨rfl, rfl, List.length_set⟩
  · simp [hp] at hp'

/-- R46: from an empty pool the table size is given and the table grows by one slot. -/
theorem segAlloc_from_table (h : m.segAlloc cfg len = .ok (id, m')) (hp : m.pool = []) :
    id.toNat = m.seg.length ∧ m'.pool = [] ∧ m'.seg.length = m.seg.length + 1 := by
  obtain ⟨-, ⟨rest, hp', -⟩ | ⟨-, hsize, rfl, rfl⟩⟩ := segAlloc_ok_iff.mp h
  · simp [hp] at hp'
  · exact ⟨toNat_ofNat_size hsize, rfl, List.length_append⟩

/-- R46, R52: after an allocation its identifier names zeros and every other identifier what it named. The
pool is exact, so a pooled identifier has a slot to fill. -/
theorem lookup_segAlloc (hx : PoolExact m) (h : m.segAlloc cfg len = .ok (id, m')) :
    m'.lookup id = some (Segment.zeros len.toNat) ∧ ∀ id', id' ≠ id → m'.lookup id' = m.lookup id' := by
  obtain ⟨-, ⟨rest, hp, rfl⟩ | ⟨-, hsize, rfl, rfl⟩⟩ := segAlloc_ok_iff.mp h
  · have hlt : id.toNat < m.seg.length :=
      (List.getElem?_eq_some_iff.mp (hx.unmapped id (by simp [hp]))).1
    exact ⟨by simp [lookup_set _ _ _ _ _ hlt], fun id' hne => by simp [lookup_set _ _ _ _ _ hlt, hne]⟩
  · have hid := toNat_ofNat_size hsize
    refine ⟨lookup_eq_some.mpr (by simp [hid]), fun id' hne => lookup_append id' fun e => hne ?_⟩
    exact BitVec.eq_of_toNat_eq (e.trans hid.symm)

end

/-- Settles O26: the allocation succeeds, so the instruction completes with its identifier and table. -/
theorem allocReturnsAZeroFilledSegment : Obligations.AllocReturnsAZeroFilledSegment := by
  intro b c s hinv hlen hcap hroom
  obtain ⟨id, m, ha⟩ := segAlloc_completes (roomFor_iff.mpr ⟨hlen, hcap⟩) hroom
  obtain ⟨hzeros, hother⟩ := lookup_segAlloc hinv.pool ha
  exact ⟨id, m, exec_alloc_of_ok ha, fun _ _ => segAlloc_from_pool ha, segAlloc_from_table ha,
    segRead_of_zeros hzeros, fun id' off hne => segRead_congr off (hother id' hne)⟩

/-! ### SegFree (R47) -/

/-- Settles O27: the free succeeds, so the instruction completes with the table it gives. -/
theorem freeUnmapsAndPoolsTheSegment : Obligations.FreeUnmapsAndPoolsTheSegment := by
  intro c s sg h0 hsg
  have hl : s.mem.lookup s.x[c] = some sg := lookup_eq_some.mpr hsg
  have hlt : s.x[c].toNat < s.mem.seg.length := lookup_lt hl
  exact ⟨_, exec_free_of_ok (segFree_of_some h0 hl), rfl, List.length_set,
    fun off => segRead_of_none off (lookup_set_unmapped _ hlt),
    fun id off hne => segRead_set_other off hlt hne⟩

end Sys2Proof.Machine

/-! # Proofs: halt and load-program (45_control.md) -/

namespace Sys2Proof.Machine

/-! ### halt (R160) -/

/-- R160, R58: halt changes the run state only; releasing the segments keeps the table for observation. -/
theorem exec_halt (s : State) : exec .halt s = .next s.stop := rfl

/-- Settles O28. -/
theorem haltStopsTheMachine : Obligations.HaltStopsTheMachine :=
  fun s => ⟨s.stop, exec_halt s, stop_run s, stop_x s, stop_mem s, stop_inp s, stop_out s, stop_fkind s,
    stop_fpc s, stop_image s, stop_cfg s⟩

/-! ### load-program (R161, R48) -/

section

variable {cfg : Config} {m m' : Memory} {src : Word}

/-- R48: a copy replaces segment 0 only. -/
theorem segRead_segDup_other {id : Word} (off : Word) (hz : m.valid 0 = true)
    (h : m.segDup cfg src = .ok m') (hne : id ≠ 0) : m'.segRead id off = m.segRead id off := by
  obtain ⟨z, hz⟩ := valid_zero_iff.mp hz
  obtain ⟨sg, -, ⟨-, rfl⟩ | ⟨-, -, rfl⟩⟩ := segDup_ok_iff.mp h
  · rfl
  · exact segRead_set_other off (lookup_lt (lookup_eq_some.mpr hz)) hne

/-- R48: a copy keeps the pool and the table size. -/
theorem segDup_pool_size (h : m.segDup cfg src = .ok m') :
    m'.pool = m.pool ∧ m'.seg.length = m.seg.length := by
  obtain ⟨sg, -, ⟨-, rfl⟩ | ⟨-, -, rfl⟩⟩ := segDup_ok_iff.mp h
  · exact ⟨rfl, rfl⟩
  · exact ⟨rfl, List.length_set⟩

end

/-- Settles O29: from segment 0 only pc is set; otherwise the copy fits, so the instruction completes with
the table it gives. -/
theorem loadpCopiesTheSegmentAndJumps : Obligations.LoadpCopiesTheSegmentAndJumps := by
  intro b c s sg hsg
  have hl : s.mem.lookup s.x[b] = some sg := lookup_eq_some.mpr hsg
  refine ⟨fun h0 => exec_loadp_zero h0 (h0 ▸ hl), fun old h0 hold hcap => ?_⟩
  have hroom : s.mem.roomForProgram s.cfg sg = true := by
    rwa [roomForProgram_iff, segLen_of_some (lookup_eq_some.mpr hold)]
  have hz : s.mem.valid 0 = true := valid_zero_iff.mpr ⟨old, hold⟩
  obtain ⟨m, hm⟩ := segDup_completes hl (.inr hroom)
  exact ⟨m, exec_loadp_of_ok hm, fun off => segRead_zero_of_segDup off hz hm,
    fun _ off hne => segRead_segDup_other off hz hm hne, segDup_pool_size hm⟩

end Sys2Proof.Machine

/-! # Proofs: input and output (46_io.md) -/

namespace Sys2Proof.Machine

/-! ### output (R170) -/

@[simp] theorem isByte_iff {v : Word} : isByte v = true ↔ v.toNat ≤ 255 := decide_eq_true_iff

theorem exec_output_of_le {c : Reg} {s : State} (h : (s.reg c).toNat ≤ 255) :
    exec (.output c) s = .next (s.outByte (outputOperand (s.reg c))) := by
  rw [exec, execOutput, if_pos (isByte_iff.mpr h)]

theorem exec_output_of_lt {c : Reg} {s : State} (h : 255 < (s.reg c).toNat) :
    exec (.output c) s = .next (raiseAt .invalidOutput s.ipc s) := by
  rw [exec, execOutput, if_neg fun hb => Nat.not_le_of_lt h (isByte_iff.mp hb), raiseFault]

theorem toNat_outputOperand {v : Word} (h : v.toNat ≤ 255) : (outputOperand v).toNat = v.toNat := by
  rw [outputOperand, BitVec.toNat_setWidth, Nat.mod_eq_of_lt (Nat.lt_succ_of_le h)]

/-- Settles O30: a value of at most 255 is the byte it is cut to. -/
theorem outputEmitsTheByte : Obligations.OutputEmitsTheByte :=
  fun _ _ h => ⟨_, exec_output_of_le h, toNat_outputOperand h⟩

/-! ### input (R171) -/

theorem exec_input_of_cons {c : Reg} {s : State} {b : Byte} {rest : List Byte} (h : s.inp = b :: rest) :
    exec (.input c) s = .next ({ s with inp := rest }.setReg c (inputOperand (some b))) := by
  rw [exec, execInput, inByte_cons h]

theorem exec_input_of_nil {c : Reg} {s : State} (h : s.inp = []) :
    exec (.input c) s = .next (s.setReg c (inputOperand none)) := by
  rw [exec, execInput, inByte_nil h]

theorem toNat_inputOperand_some (b : Byte) : (inputOperand (some b)).toNat = b.toNat :=
  BitVec.toNat_setWidth_of_le (by decide)

/-- Settles O31, by whether input remains. -/
theorem inputReadsTheNextByteOrEof : Obligations.InputReadsTheNextByteOrEof :=
  fun _ _ => ⟨fun b _ h => ⟨_, exec_input_of_cons h, toNat_inputOperand_some b⟩, exec_input_of_nil⟩

/-! ### The byte channels over a step (R172 to R175) -/

/-- Output emits one byte at the end, or raises the fault. -/
theorem exec_output_cases {c : Reg} {s t : State} (h : exec (.output c) s = .next t) :
    (∃ b, t = s.outByte b) ∨ t = raiseAt .invalidOutput s.ipc s := by
  obtain hle | hlt := le_or_gt (s.reg c).toNat 255
  · rw [exec_output_of_le hle] at h
    exact .inl ⟨_, (Host.Outcome.next.inj h).symm⟩
  · rw [exec_output_of_lt hlt] at h
    exact .inr (Host.Outcome.next.inj h).symm

/-- Input emits nothing, and takes the first byte of the input unless it is at its end. -/
theorem exec_input_cases {c : Reg} {s t : State} (h : exec (.input c) s = .next t) :
    t.out = s.out ∧ (t.inp = s.inp ∨ ∃ b, s.inp = b :: t.inp) := by
  cases hi : s.inp with
  | nil =>
    rw [exec_input_of_nil hi] at h
    obtain rfl := Host.Outcome.next.inj h
    exact ⟨rfl, .inl hi⟩
  | cons b rest =>
    rw [exec_input_of_cons hi] at h
    obtain rfl := Host.Outcome.next.inj h
    exact ⟨rfl, .inr ⟨b, rfl⟩⟩

/-- An operation that may fault leaves the channels alone when its completion does. -/
theorem channels_of_completeOrRaise {α : Type} {r : Except FaultKind α} {s t : State} {f : α → State}
    (h : completeOrRaise r s f = .next t) (hf : ∀ a, (f a).out = s.out ∧ (f a).inp = s.inp) :
    t.out = s.out ∧ t.inp = s.inp := by
  obtain ⟨a, _, rfl⟩ | ⟨kind, _, rfl⟩ := completeOrRaise_next.mp h
  · exact hf a
  · exact ⟨rfl, rfl⟩

/-- An instruction leaves both channels alone, but for output, which may emit a byte, and input, which may
take one. -/
theorem exec_channels {i : Instr} {s t : State} (h : exec i s = .next t) :
    (t.out = s.out ∧ t.inp = s.inp) ∨ (∃ c b, i = .output c ∧ t = s.outByte b) ∨
      ∃ c b, i = .input c ∧ t.out = s.out ∧ s.inp = b :: t.inp := by
  cases i
  case output c =>
    obtain ⟨b, rfl⟩ | rfl := exec_output_cases h
    · exact .inr (.inl ⟨c, b, rfl, rfl⟩)
    · exact .inl ⟨rfl, rfl⟩
  case input c =>
    obtain ⟨hout, hinp | ⟨b, hinp⟩⟩ := exec_input_cases h
    · exact .inl ⟨hout, hinp⟩
    · exact .inr (.inr ⟨c, b, rfl, hout, hinp⟩)
  all_goals left
  case sload => exact channels_of_completeOrRaise h fun _ => ⟨rfl, rfl⟩
  case sstore => exact channels_of_completeOrRaise h fun _ => ⟨rfl, rfl⟩
  case div => exact channels_of_completeOrRaise h fun _ => ⟨rfl, rfl⟩
  case alloc => exact channels_of_completeOrRaise h fun _ => ⟨rfl, rfl⟩
  case free => exact channels_of_completeOrRaise h fun _ => ⟨rfl, rfl⟩
  case loadp => exact channels_of_completeOrRaise h fun _ => ⟨rfl, rfl⟩
  case cmov =>
    obtain rfl := Host.Outcome.next.inj h
    split <;> exact ⟨rfl, rfl⟩
  all_goals
    obtain rfl := Host.Outcome.next.inj h
    exact ⟨rfl, rfl⟩

/-- No instruction writes the parameters. -/
theorem exec_cfg {i : Instr} {s t : State} (h : exec i s = .next t) : t.cfg = s.cfg := by
  obtain hc | ⟨kind, rfl⟩ := exec_cases h
  · exact hc.cfg
  · rfl

/-- The load uses no channel and keeps the parameters. -/
theorem loadingStep_channels {s t : State} (h : loadingStep s = .next t) :
    t.out = s.out ∧ t.inp = s.inp ∧ t.cfg = s.cfg := by
  obtain ⟨_, _, ⟨m, _, rfl⟩ | ⟨kind, _, rfl⟩⟩ := loadingStep_cases h <;> exact ⟨rfl, rfl, rfl⟩

/-- Settles O50: a load, a failed fetch and an invalid word use no channel, so what remains is what the
fetched instruction does. -/
theorem byteChannelsAreUsedInProgramOrder : Obligations.ByteChannelsAreUsedInProgramOrder := by
  intro s t h
  obtain ⟨_, hl⟩ | ⟨hr, hrun⟩ := step_cases h
  · obtain ⟨hout, hinp, hcfg⟩ := loadingStep_channels hl
    exact ⟨.inl hout, .inl hinp, hcfg⟩
  · obtain ⟨kind, _, rfl⟩ | ⟨w, _, _, rfl⟩ | ⟨w, i, hf, hd, he⟩ := runningStep_cases hrun
    · exact ⟨.inl rfl, .inl rfl, rfl⟩
    · exact ⟨.inl rfl, .inl rfl, rfl⟩
    · have hcfg : t.cfg = s.cfg := exec_cfg (s := s.executePhase) he
      obtain ⟨hout, hinp⟩ | ⟨c, b, rfl, rfl⟩ | ⟨c, b, rfl, hout, hinp⟩ := exec_channels he
      · exact ⟨.inl hout, .inl hinp, hcfg⟩
      · exact ⟨.inr ⟨w, c, b, hr, hf, hd, rfl⟩, .inl rfl, hcfg⟩
      · exact ⟨.inl hout, .inr ⟨w, c, b, hr, hf, hd, hinp⟩, hcfg⟩

end Sys2Proof.Machine

/-! # Proofs: exceptions (60_exceptions.md) -/

namespace Sys2Proof.Machine

/-! ### Faults of the operations (R181, R183 to R186, R189, R191) -/

/-- R107, R181: raising a fault in a step records it at the latch, and nothing else changes. -/
theorem faultRecorded_ipc (kind : FaultKind) (s : State) :
    FaultRecorded kind s.ipc s (raiseAt kind s.ipc s) :=
  faultRecorded_raiseAt kind s.ipc s s.ipc s.pc

/-- R107, R181: an instruction whose operation meets a fault records that fault and does not complete. -/
theorem faultRecorded_of_error {α : Type} {r : Except FaultKind α} {kind : FaultKind} (s : State)
    (f : α → State) (h : r = .error kind) :
    ∃ t, completeOrRaise r s f = .next t ∧ FaultRecorded kind s.ipc s t := by
  rw [h, completeOrRaise_error]
  exact ⟨_, rfl, faultRecorded_ipc kind s⟩

/-- R46: an allocation beyond a size limit has no room. -/
theorem roomFor_eq_false {cfg : Config} {m : Memory} {len : Nat}
    (h : cfg.maxSegWords < len ∨ cfg.memCapacityWords < m.usedWords + len) :
    m.roomFor cfg len = false := by
  rw [Bool.eq_false_iff, ne_eq, roomFor_iff]
  omega

/-- R48: a copy that would exceed the capacity has no room. -/
theorem roomForProgram_eq_false {cfg : Config} {m : Memory} {sg old : Segment}
    (hold : m.lookup 0 = some old) (h : cfg.memCapacityWords < m.usedWords - old.len + sg.len) :
    m.roomForProgram cfg sg = false := by
  rw [Bool.eq_false_iff, ne_eq, roomForProgram_iff, segLen_of_some hold]
  exact Nat.not_le_of_lt h

/-- Settles O38: SegAlloc and SegDup meet the limit, and the instruction raises what they met. -/
theorem resourceExhaustedIsRaised : Obligations.ResourceExhaustedIsRaised := by
  refine fun b c s => ⟨fun h => ?_, fun sg old h0 hsg hold hcap => ?_⟩
  · refine faultRecorded_of_error s _ (segAlloc_error ?_)
    obtain hlen | hcap | hfull := h
    · exact .inl (roomFor_eq_false (.inl hlen))
    · exact .inl (roomFor_eq_false (.inr hcap))
    · exact .inr hfull
  · have hroom := roomForProgram_eq_false (lookup_eq_some.mpr hold) hcap
    exact faultRecorded_of_error s _ (segDup_exhausted (lookup_eq_some.mpr hsg) h0 hroom)

/-- Settles O33: each Segment Table operation rejects the identifier. -/
theorem invalidSegmentIsRaised : Obligations.InvalidSegmentIsRaised := by
  refine fun a b c s => ⟨fun h => ?_, fun h => ?_, fun h => ?_, fun h => ?_⟩
  · exact faultRecorded_of_error s _ (segRead_of_none _ (notMapped_iff.mp h))
  · exact faultRecorded_of_error s _ (segWrite_of_none _ _ (notMapped_iff.mp h))
  · exact faultRecorded_of_error s _ (segFree_error (h.imp_right notMapped_iff.mp))
  · exact faultRecorded_of_error s _ (segDup_of_none (notMapped_iff.mp h))

/-- R44: a read at or beyond the length of a live segment. -/
theorem segRead_of_len_le {m : Memory} {id off : Word} {sg : Segment} (h : m.lookup id = some sg)
    (hle : sg.len ≤ off.toNat) : m.segRead id off = .error .outOfBounds := by
  rw [segRead_of_some off h, if_neg (Nat.not_lt.mpr hle)]

/-- R45: a write at or beyond the length of a live segment. -/
theorem segWrite_of_len_le {m : Memory} {id off : Word} {sg : Segment} (v : Word)
    (h : m.lookup id = some sg) (hle : sg.len ≤ off.toNat) :
    m.segWrite id off v = .error .outOfBounds := by
  rw [segWrite_of_some off v h, if_neg (Nat.not_lt.mpr hle)]

/-- Settles O34: the segment is live, so SegRead and SegWrite reject the offset. -/
theorem outOfBoundsIsRaised : Obligations.OutOfBoundsIsRaised := by
  refine fun a b c s sg => ⟨fun h hle => ?_, fun h hle => ?_⟩
  · exact faultRecorded_of_error s _ (segRead_of_len_le (lookup_eq_some.mpr h) hle)
  · exact faultRecorded_of_error s _ (segWrite_of_len_le _ (lookup_eq_some.mpr h) hle)

/-- R132: a divisor of 0 is checked whatever the dividend is. -/
theorem aluDiv_zero (b : Word) : aluDiv b 0 = .error .divisionByZero := if_pos rfl

/-- Settles O35: the division meets the zero divisor, and the instruction raises what it met. -/
theorem divisionByZeroIsRaised : Obligations.DivisionByZeroIsRaised := by
  intro a b c s h
  have hdiv : aluDiv s.x[b] s.x[c] = .error .divisionByZero := by rw [h, aluDiv_zero]
  exact faultRecorded_of_error s _ hdiv

/-- Settles O36: the value is no byte, so the fault is raised in place of the emission. -/
theorem invalidOutputIsRaised : Obligations.InvalidOutputIsRaised :=
  fun _ s h => ⟨_, exec_output_of_lt h, faultRecorded_ipc .invalidOutput s⟩

/-- R103, R189: a RUNNING step whose word does not decode raises UnknownOpcode. -/
theorem runningStep_of_invalid {s : State} {w : Word} (hf : s.mem.segRead 0 s.pc = .ok w)
    (hd : decode w = .error .unknownOpcode) :
    runningStep s = .next (raiseAt .unknownOpcode s.pc s.executePhase) := by
  rw [runningStep_of_word hf, executeWord, hd]
  rfl

/-- Settles O37: the word does not decode, and the latch holds its offset. -/
theorem unknownOpcodeIsRaised : Obligations.UnknownOpcodeIsRaised := by
  intro s w hr hf hop
  rw [← opcodeField_eq_wordBits] at hop
  rw [step_of_running hr, runningStep_of_invalid hf (decode_eq_error_iff.mpr hop)]
  exact ⟨_, rfl, faultRecorded_executePhase .unknownOpcode s⟩

/-! ### Faults of the load (R190 to R192, R202) -/

section

variable {rest : List Byte} (b0 b1 b2 b3 : Byte)

/-- The next word of an image does not change how many bytes are left over at its end. -/
theorem length_mod_four_cons : (b0 :: b1 :: b2 :: b3 :: rest).length % 4 = rest.length % 4 :=
  Nat.add_mod_right rest.length 4

theorem imageWords_cons_of_ok {words : List Word} (h : imageWords rest = .ok words) :
    imageWords (b0 :: b1 :: b2 :: b3 :: rest) = .ok (wordOfBytes b0 b1 b2 b3 :: words) := by
  rw [imageWords, h]

theorem imageWords_cons_of_error {kind : FaultKind} (h : imageWords rest = .error kind) :
    imageWords (b0 :: b1 :: b2 :: b3 :: rest) = .error kind := by
  rw [imageWords, h]

end

/-- R190, R201: an image that ends in a partial word is malformed. -/
theorem imageWords_malformed {bytes : List Byte} (h : bytes.length % 4 ≠ 0) :
    imageWords bytes = .error .malformedProgram := by
  match bytes, h with
  | [], h => exact absurd rfl h
  | b0 :: b1 :: b2 :: b3 :: rest, h =>
    have hrest : rest.length % 4 ≠ 0 := by rwa [length_mod_four_cons] at h
    exact imageWords_cons_of_error b0 b1 b2 b3 (imageWords_malformed hrest)
  | [_], _ => rfl
  | [_, _], _ => rfl
  | [_, _, _], _ => rfl

/-- R201: an image of whole words has one word for every four bytes. -/
theorem imageWords_of_whole_words {bytes : List Byte} (h : bytes.length % 4 = 0) :
    ∃ words, imageWords bytes = .ok words ∧ words.length = bytes.length / 4 := by
  match bytes, h with
  | [], _ => exact ⟨[], rfl, rfl⟩
  | b0 :: b1 :: b2 :: b3 :: rest, h =>
    have hrest : rest.length % 4 = 0 := by rwa [length_mod_four_cons] at h
    obtain ⟨words, hw, hlen⟩ := imageWords_of_whole_words hrest
    refine ⟨_, imageWords_cons_of_ok b0 b1 b2 b3 hw, ?_⟩
    simp only [List.length_cons]
    omega
  | [_], h | [_, _], h | [_, _, _], h => simp at h

theorem imageMemory_of_error {cfg : Config} {bytes : List Byte} {kind : FaultKind}
    (h : imageWords bytes = .error kind) : imageMemory cfg bytes = .error kind := by
  rw [imageMemory, h]

theorem imageMemory_of_words {cfg : Config} {bytes : List Byte} {words : List Word}
    (h : imageWords bytes = .ok words) :
    imageMemory cfg bytes = Memory.segLoadInitial cfg words := by
  rw [imageMemory, h]

/-- R181, R190, R191: a load that meets a fault records it at offset 0; only the offered image goes. -/
theorem faultRecorded_of_image_error {s : State} {bytes : List Byte} {kind : FaultKind}
    (hr : s.run = .loading) (hi : s.image = some bytes)
    (h : imageMemory s.cfg bytes = .error kind) :
    ∃ t, step s = .next t ∧ FaultRecorded kind 0 { s with image := none } t := by
  refine ⟨raiseAt kind 0 s.takeImage, ?_, faultRecorded_raiseAt kind 0 s.takeImage s.ipc s.pc⟩
  rw [step_of_loading hr, loadingStep, hi]
  simp only [loadImage, takeImage_cfg, h, raiseLoadFault]

/-- Settles O54: a partial word is met before the limits are checked (R192). -/
theorem loadPhaseFaultsAreRaised : Obligations.LoadPhaseFaultsAreRaised := by
  refine fun s bytes hr hi => ⟨fun hpart => ?_, fun hwhole hlimit => ?_⟩
  · exact faultRecorded_of_image_error hr hi (imageMemory_of_error (imageWords_malformed hpart))
  · obtain ⟨words, hw, hlen⟩ := imageWords_of_whole_words hwhole
    rw [← hlen] at hlimit
    exact faultRecorded_of_image_error hr hi
      ((imageMemory_of_words hw).trans (segLoadInitial_error hlimit))

/-! ### The exit status (R196) -/

theorem exitStatus_of_halted {s : State} (h : s.run = .halted) : s.exitStatus = some 0 := by
  simp only [State.exitStatus, h]

theorem exitStatus_of_faulted {s : State} (h : s.run = .faulted) :
    s.exitStatus = some s.cfg.faultExitStatus := by
  simp only [State.exitStatus, h]

/-- R196: a run that has not ended, that is one in LOADING or RUNNING, has no exit status. -/
theorem exitStatus_of_not_ended {s : State} (h : s.ended = false) : s.exitStatus = none := by
  rw [Bool.eq_false_iff, ne_eq, ended_iff] at h
  cases hr : s.run with
  | loading | running => simp only [State.exitStatus, hr]
  | halted => exact absurd (.inl hr) h
  | faulted => exact absurd (.inr hr) h

/-- Settles O56: the parameter is not zero by its type. -/
theorem exitStatusTellsHowTheRunEnded : Obligations.ExitStatusTellsHowTheRunEnded :=
  fun s => ⟨exitStatus_of_halted,
    fun h => ⟨exitStatus_of_faulted h, Nat.ne_of_gt s.cfg.faultExitStatus_pos⟩,
    exitStatus_of_not_ended⟩

end Sys2Proof.Machine

/-! # Proofs: loading and the start of a run (70_reset_and_hazards.md) -/

namespace Sys2Proof.Machine

/-! ### The words of the image (R201) -/

theorem toNat_wordOfBytes (b0 b1 b2 b3 : Byte) :
    (wordOfBytes b0 b1 b2 b3).toNat =
      b0.toNat * 2 ^ 24 + b1.toNat * 2 ^ 16 + b2.toNat * 2 ^ 8 + b3.toNat := by
  rw [wordOfBytes, BitVec.toNat_ofNat, Nat.mod_eq_of_lt]
  have h0 := b0.isLt
  have h1 := b1.isLt
  have h2 := b2.isLt
  have h3 := b3.isLt
  omega

/-- R201: the four bytes at `4 * k`, as a word; a byte past the end of the image counts as 0. -/
def imageWordAt (bytes : List Byte) (k : Nat) : Word :=
  wordOfBytes (bytes.getD (4 * k) 0) (bytes.getD (4 * k + 1) 0) (bytes.getD (4 * k + 2) 0)
    (bytes.getD (4 * k + 3) 0)

theorem imageWordAt_zero (b0 b1 b2 b3 : Byte) (rest : List Byte) :
    imageWordAt (b0 :: b1 :: b2 :: b3 :: rest) 0 = wordOfBytes b0 b1 b2 b3 := rfl

/-- The first four bytes shift the words of the rest by one. -/
theorem imageWordAt_succ (b0 b1 b2 b3 : Byte) (rest : List Byte) (k : Nat) :
    imageWordAt (b0 :: b1 :: b2 :: b3 :: rest) (k + 1) = imageWordAt rest k := rfl

/-- R201: word `k` of the image is made of the four bytes at `4 * k`. -/
theorem getElem?_of_imageWords {bytes : List Byte} {words : List Word}
    (h : imageWords bytes = .ok words) {k : Nat} (hk : k < words.length) :
    words[k]? = some (imageWordAt bytes k) := by
  induction bytes using imageWords.induct generalizing words k with
  | case1 =>
    obtain rfl : [] = words := Except.ok.inj h
    exact absurd hk (Nat.not_lt_zero k)
  | case2 b0 b1 b2 b3 rest tail hrest ih =>
    rw [imageWords_cons_of_ok b0 b1 b2 b3 hrest] at h
    obtain rfl := Except.ok.inj h
    cases k with
    | zero => rw [imageWordAt_zero, List.getElem?_cons_zero]
    | succ k =>
      rw [imageWordAt_succ, List.getElem?_cons_succ]
      exact ih hrest (Nat.lt_of_succ_lt_succ hk)
  | case3 b0 b1 b2 b3 rest kind hrest =>
    rw [imageWords_cons_of_error b0 b1 b2 b3 hrest] at h
    cases h
  | case4 | case5 | case6 => cases h

/-- Settles O52: a partial word is met by the loader, which raises it; otherwise each word is read off its
four bytes. -/
theorem imageIsBigEndianWords : Obligations.ImageIsBigEndianWords := by
  refine fun bytes => ⟨fun hpart => ?_, fun hwhole => ?_⟩
  · have hbad := imageWords_malformed hpart
    refine ⟨hbad, fun s hr hi => ?_⟩
    obtain ⟨t, hs, hf⟩ := faultRecorded_of_image_error hr hi (imageMemory_of_error hbad)
    exact ⟨t, hs, hf.run, hf.fkind⟩
  · obtain ⟨words, hw, hlen⟩ := imageWords_of_whole_words hwhole
    exact ⟨words, hw, hlen, fun k hk =>
      ⟨_, getElem?_of_imageWords hw (hlen ▸ hk), toNat_wordOfBytes _ _ _ _⟩⟩

/-! ### The start of the run (R203, R206) -/

/-- R203: a LOADING step takes an image that gives a table, and starts the run with it. -/
theorem step_of_image_ok {s : State} {bytes : List Byte} {m : Memory} (hr : s.run = .loading)
    (hi : s.image = some bytes) (h : imageMemory s.cfg bytes = .ok m) :
    step s = .next (s.takeImage.start m) := by
  rw [step_of_loading hr, loadingStep, hi]
  simp only [loadImage, takeImage_cfg, h]

/-- Settles O53: the words are within the limits, so the loader installs them as segment 0. -/
theorem acceptedImageStartsTheRun : Obligations.AcceptedImageStartsTheRun := by
  intro cfg inp bytes words hw hseg hcap
  have hload := segLoadInitial_ok_iff.mpr ⟨hseg, hcap, rfl⟩
  exact ⟨Segment.ofWords words, words_ofWords words,
    step_of_image_ok rfl rfl ((imageMemory_of_words hw).trans hload)⟩

/-! ### LOAD_INITIAL (R204) -/

theorem hostOfferImage_of_no_image (bytes : List Byte) {s : State} (hr : s.run = .loading)
    (hi : s.image = none) : hostOfferImage bytes s = .next { s with image := some bytes } := by
  simp only [hostOfferImage, hr, hi]

/-- R204: a second image is refused. -/
theorem hostOfferImage_of_image (bytes : List Byte) {s : State} {first : List Byte}
    (hr : s.run = .loading) (hi : s.image = some first) :
    hostOfferImage bytes s = .refused .loadInitialRefused := by
  simp only [hostOfferImage, hr, hi]

/-- R204: outside LOADING the image is refused. -/
theorem hostOfferImage_of_not_loading (bytes : List Byte) {s : State} (h : s.run ≠ .loading) :
    hostOfferImage bytes s = .refused .loadInitialRefused := by
  cases hr : s.run with
  | loading => exact absurd hr h
  | running | halted | faulted => simp only [hostOfferImage, hr]

/-- Settles O55: the offer that is taken fills the field on which the next one is refused. -/
theorem loadInitialIsAcceptedOnlyOnce : Obligations.LoadInitialIsAcceptedOnlyOnce :=
  fun bytes _ => ⟨fun hr hi => ⟨_, hostOfferImage_of_no_image bytes hr hi, rfl,
      fun again => hostOfferImage_of_image again hr rfl⟩,
    hostOfferImage_of_not_loading bytes⟩

end Sys2Proof.Machine
